-- ==== Sys2Proof/Word.lean ====
section
/-! DEFINITION. The word types of the CAN Frame Codec (00_scope.md R6, R8, R9; 30_encoding.md R55, R60).
Bits are numbered from 0 at the least significant bit; `extractLsb' lo w` is the spec's `v[lo+w-1:lo]`. -/

namespace Sys2Proof

/-- One byte of the frame buffer or of a stream (00_scope.md R6: FRAME_BYTES of 8 bits each). -/
abbrev Byte := BitVec 8

/-- An operand field of the command word, an item VALUE, or response DATA (R55, R60, R62). -/
abbrev Word := BitVec 32

/-- The command word CW (00_scope.md R6: CW_BITS = 72). -/
abbrev CommandWord := BitVec 72

/-- The builder item word (00_scope.md R6: ITEM_BITS = 40). -/
abbrev ItemWord := BitVec 40

end Sys2Proof
end

