-- ==== Sys2Proof/Config.lean ====
section
/-! DEFINITION. What one realisation fixes (MAX_ITEMS) and the values the spec leaves free. -/

namespace Sys2Proof

/-- The parameter the spec leaves open (00_scope.md R7, decision D21): MAX_ITEMS, the largest item count a
BUILD accepts, a natural number or unbounded (`none`). It travels in State, and no step changes it, so that a
statement about every state holds for every MAX_ITEMS (log entry 6, DESIGN CHOICE). -/
structure Config where
  maxItems : Option Nat
  deriving DecidableEq, Repr

/-- FREE VALUE: the DATA of a response to which the spec gives none (30_encoding.md R62: STATUS not OK; log
entries 4 and 5). It has no body, so nothing can be proved of its values; the argument numbers the draws.
DESIGN CHOICE (the form), safe. -/
opaque Config.freeData : Nat → Word

/-- FREE VALUE: byte k of F before the first reset (10_state.md R32, 70_reset_and_hazards.md R132: unspecified;
log entry 9). DESIGN CHOICE (the form), safe. -/
opaque Config.powerOnByte : Nat → Byte

end Sys2Proof
end

