-- ==== Sys2Proof/Syntax.lean ====
section
/-! DEFINITION. The commands as syntax: one constructor for each row of spec/opcode_table.json
(30_encoding.md R63), and the builder items (R60). A used operand field keeps all its 32 bits here; which of
them count is the meaning's business (R58). -/

namespace Sys2Proof

/-- A builder item (30_encoding.md R60). Each kind keeps the whole VALUE field; NULL uses none of it. -/
inductive Item where
  /-- TAG 0x00: emits nothing (R106). -/
  | null
  /-- TAG 0x01: one byte, 0 or 1 (R107). -/
  | bool (v : Word)
  /-- TAG 0x02: one byte (R108). -/
  | byte (v : Word)
  /-- TAG 0x03: two bytes, big-endian (R109). -/
  | u16 (v : Word)
  /-- TAG 0x04: four bytes, big-endian (R110). -/
  | u32 (v : Word)
  /-- TAG 0x05: one byte (R111). -/
  | enum (v : Word)
  /-- TAG 0x06 to 0xFF: any unsupported type (R112). -/
  | other (tag : Byte) (v : Word)
  deriving DecidableEq, Repr

/-- A command. LOAD and BUILD carry their operand stream; their field A is its length (30_encoding.md R57: the
interface ties the two together), so it is not kept a second time. -/
inductive Instr where
  | new
  | load (s : List Byte)
  | clone
  | getid
  | setid (a : Word)
  | getdlc
  | setdlc (a : Word)
  | geteff
  | seteff (a : Word)
  | getrtr
  | setrtr (a : Word)
  | geterr
  | seterr (a : Word)
  | prd (a : Word)
  | pwr (a : Word) (b : Word)
  | build (items : List Item)
  deriving DecidableEq, Repr

/-- The operand stream as it is presented beside the command word (30_encoding.md R57): no stream, bytes for
LOAD, 40-bit item words for BUILD. -/
inductive OperandStream where
  | none
  | bytes (s : List Byte)
  | items (s : List ItemWord)
  deriving DecidableEq, Repr

/-- A command as it is presented on the command interface (10_state.md R29): the command word and the stream. -/
structure Transfer where
  cw : CommandWord
  stream : OperandStream
  deriving DecidableEq, Repr

/-- The 16 assigned opcodes by name (30_encoding.md R63); their numbers are `Opcode.code` in Decode.lean. -/
inductive Opcode where
  | new | load | clone
  | getid | setid | getdlc | setdlc
  | geteff | seteff | getrtr | setrtr | geterr | seterr
  | prd | pwr
  | build
  deriving DecidableEq, Repr

/-- What the decoder reads from a transfer: a command, an unassigned opcode (30_encoding.md R64), or a stream
that does not have the length A asks for, which the interface cannot present (R57). -/
inductive Decoded where
  | command (i : Instr)
  | illegal (op : Byte)
  | unpresentable
  deriving DecidableEq, Repr

/-- The tokens of one line of assembler text (30_encoding.md R67). -/
inductive Token where
  | word (s : List Char)
  | num (n : Nat)
  | comma
  | lbrack
  | rbrack
  deriving DecidableEq, Repr

end Sys2Proof
end

