-- ==== Sys2Proof/WellFormed.lean ====
section
/-! DEFINITION. Which terms of the syntax spell a command (30_encoding.md R57, R60). -/

namespace Sys2Proof

/-- An OTHER item has a TAG of 0x06 to 0xFF (R60, R67); every other item is well formed. -/
def Item.wf : Item → Bool
  | .other tag _ => decide (6 ≤ tag.toNat)
  | .null => true
  | .bool _ => true
  | .byte _ => true
  | .u16 _ => true
  | .u32 _ => true
  | .enum _ => true

/-- A stream's length is the 32-bit field A (R57), so it is below 2^32; BUILD's items are well formed.
What exec does with other terms is log entry 16. -/
def Instr.wf : Instr → Bool
  | .load s => decide (s.length < 2 ^ 32)
  | .build items => decide (items.length < 2 ^ 32) && items.all Item.wf
  | .new => true
  | .clone => true
  | .getid => true
  | .setid _ => true
  | .getdlc => true
  | .setdlc _ => true
  | .geteff => true
  | .seteff _ => true
  | .getrtr => true
  | .setrtr _ => true
  | .geterr => true
  | .seterr _ => true
  | .prd _ => true
  | .pwr _ _ => true

end Sys2Proof
end

