-- ==== Sys2Proof/Decode.lean ====
section
/-! DEFINITION. The opcode map, the decoder, the encoder and the assembler (30_encoding.md R55 to R68). -/

namespace Sys2Proof

/-! The command word (30_encoding.md R55). -/

/-- OP = CW[7:0]. -/
def opField (cw : CommandWord) : Byte := cw.extractLsb' 0 8

/-- A = CW[39:8]. -/
def aField (cw : CommandWord) : Word := cw.extractLsb' 8 32

/-- B = CW[71:40]. -/
def bField (cw : CommandWord) : Word := cw.extractLsb' 40 32

/-- The word with the three fields, `{B, A, OP}`. -/
def commandWord (op : Byte) (a b : Word) : CommandWord := b ++ a ++ op

/-! The opcode map (30_encoding.md R63). -/

/-- The opcode's number. -/
def Opcode.code : Opcode → Byte
  | .new    => 0x01
  | .load   => 0x02
  | .clone  => 0x03
  | .getid  => 0x10
  | .setid  => 0x11
  | .getdlc => 0x12
  | .setdlc => 0x13
  | .geteff => 0x14
  | .seteff => 0x15
  | .getrtr => 0x16
  | .setrtr => 0x17
  | .geterr => 0x18
  | .seterr => 0x19
  | .prd    => 0x20
  | .pwr    => 0x21
  | .build  => 0x30

/-- The map's rows. -/
def Opcode.all : List Opcode :=
  [.new, .load, .clone, .getid, .setid, .getdlc, .setdlc, .geteff, .seteff, .getrtr, .setrtr, .geterr,
   .seterr, .prd, .pwr, .build]

/-- The opcode a number is assigned to, if any. The other 240 values are illegal (R64). -/
def Opcode.ofCode? (op : Byte) : Option Opcode := Opcode.all.find? fun o => o.code == op

/-- The opcode of a command. -/
def Instr.opcode : Instr → Opcode
  | .new => .new
  | .load _ => .load
  | .clone => .clone
  | .getid => .getid
  | .setid _ => .setid
  | .getdlc => .getdlc
  | .setdlc _ => .setdlc
  | .geteff => .geteff
  | .seteff _ => .seteff
  | .getrtr => .getrtr
  | .setrtr _ => .setrtr
  | .geterr => .geterr
  | .seterr _ => .seterr
  | .prd _ => .prd
  | .pwr _ _ => .pwr
  | .build _ => .build

/-! Items (30_encoding.md R60): TAG = item[39:32], VALUE = item[31:0]. -/

def itemTag (w : ItemWord) : Byte := w.extractLsb' 32 8

def itemValue (w : ItemWord) : Word := w.extractLsb' 0 32

/-- The item an item word spells. -/
def decodeItem (w : ItemWord) : Item :=
  match (itemTag w).toNat with
  | 0 => .null
  | 1 => .bool (itemValue w)
  | 2 => .byte (itemValue w)
  | 3 => .u16 (itemValue w)
  | 4 => .u32 (itemValue w)
  | 5 => .enum (itemValue w)
  | _ => .other (itemTag w) (itemValue w)

/-- The item's word; NULL's unused VALUE is written as zero (R56's habit, R67). -/
def encodeItem : Item → ItemWord
  | .null => 0x00#8 ++ 0#32
  | .bool v => 0x01#8 ++ v
  | .byte v => 0x02#8 ++ v
  | .u16 v => 0x03#8 ++ v
  | .u32 v => 0x04#8 ++ v
  | .enum v => 0x05#8 ++ v
  | .other tag v => tag ++ v

/-! Streams (30_encoding.md R57, R66). -/

/-- The stream as LOAD's bytes. R57 gives the empty stream (A = 0) no kind: no stream at all, and an empty list of
items, are the empty stream too (log entry 7, DESIGN CHOICE). -/
def OperandStream.asBytes? : OperandStream → Option (List Byte)
  | .none => some []
  | .bytes s => some s
  | .items [] => some []
  | .items (_ :: _) => Option.none

/-- The stream as BUILD's item words. Here too the empty stream has no kind: no stream at all, and an empty list of
bytes, are the empty stream (log entry 7, DESIGN CHOICE). -/
def OperandStream.asItems? : OperandStream → Option (List ItemWord)
  | .none => some []
  | .items s => some s
  | .bytes [] => some []
  | .bytes (_ :: _) => Option.none

/-- How many bits a presented stream has. -/
def OperandStream.bits : OperandStream → Nat
  | .none => 0
  | .bytes s => 8 * s.length
  | .items s => 40 * s.length

/-- R66: a command's total length in bits, found from OP and A alone. -/
def commandBits (cw : CommandWord) : Nat :=
  72 + match Opcode.ofCode? (opField cw) with
    | some .load => 8 * (aField cw).toNat
    | some .build => 40 * (aField cw).toNat
    | _ => 0

/-- LOAD: the stream is exactly A bytes (R57; any other stream is `unpresentable`, log entry 7). -/
def decodeLoad (a : Word) (stream : OperandStream) : Decoded :=
  match stream.asBytes? with
  | some s => if s.length = a.toNat then .command (.load s) else .unpresentable
  | none => .unpresentable

/-- BUILD: the stream is exactly A item words (R57; any other stream is `unpresentable`, log entry 7). -/
def decodeBuild (a : Word) (stream : OperandStream) : Decoded :=
  match stream.asItems? with
  | some s => if s.length = a.toNat then .command (.build (s.map decodeItem)) else .unpresentable
  | none => .unpresentable

/-- The decoder, total on every command word and stream (30_encoding.md R65). The opcode is looked at before
anything else (60_exceptions.md R119). A field or a stream that the command does not use is ignored (R56;
40_lifecycle.md R80 "absent or ignored"; log entry 8). -/
def decode (t : Transfer) : Decoded :=
  match Opcode.ofCode? (opField t.cw) with
  | none         => .illegal (opField t.cw)
  | some .new    => .command .new
  | some .load   => decodeLoad (aField t.cw) t.stream
  | some .clone  => .command .clone
  | some .getid  => .command .getid
  | some .setid  => .command (.setid (aField t.cw))
  | some .getdlc => .command .getdlc
  | some .setdlc => .command (.setdlc (aField t.cw))
  | some .geteff => .command .geteff
  | some .seteff => .command (.seteff (aField t.cw))
  | some .getrtr => .command .getrtr
  | some .setrtr => .command (.setrtr (aField t.cw))
  | some .geterr => .command .geterr
  | some .seterr => .command (.seterr (aField t.cw))
  | some .prd    => .command (.prd (aField t.cw))
  | some .pwr    => .command (.pwr (aField t.cw) (bField t.cw))
  | some .build  => decodeBuild (aField t.cw) t.stream

/-! The encoder (30_encoding.md R55, R56, R66, R67): unused fields are written as zero. -/

/-- Field A of a command: its operand, or its stream's length (R56). -/
def Instr.aOperand : Instr → Word
  | .load s => BitVec.ofNat 32 s.length
  | .setid a => a
  | .setdlc a => a
  | .seteff a => a
  | .setrtr a => a
  | .seterr a => a
  | .prd a => a
  | .pwr a _ => a
  | .build items => BitVec.ofNat 32 items.length
  | .new => 0
  | .clone => 0
  | .getid => 0
  | .getdlc => 0
  | .geteff => 0
  | .getrtr => 0
  | .geterr => 0

/-- Field B of a command: only PWR uses it (R55). -/
def Instr.bOperand : Instr → Word
  | .pwr _ b => b
  | .new => 0
  | .load _ => 0
  | .clone => 0
  | .getid => 0
  | .setid _ => 0
  | .getdlc => 0
  | .setdlc _ => 0
  | .geteff => 0
  | .seteff _ => 0
  | .getrtr => 0
  | .setrtr _ => 0
  | .geterr => 0
  | .seterr _ => 0
  | .prd _ => 0
  | .build _ => 0

/-- The operand stream of a command (R57). -/
def Instr.stream : Instr → OperandStream
  | .load s => .bytes s
  | .build items => .items (items.map encodeItem)
  | .new => .none
  | .clone => .none
  | .getid => .none
  | .setid _ => .none
  | .getdlc => .none
  | .setdlc _ => .none
  | .geteff => .none
  | .seteff _ => .none
  | .getrtr => .none
  | .setrtr _ => .none
  | .geterr => .none
  | .seterr _ => .none
  | .prd _ => .none
  | .pwr _ _ => .none

/-- The command word and stream of a command. -/
def encode (i : Instr) : Transfer where
  cw := commandWord i.opcode.code i.aOperand i.bOperand
  stream := i.stream

/-! The host's numbering of a table row (opcode_table.json: 72 bits, bit 0 the least significant bit of CW). -/

/-- A stream of zeros of the length the command word asks for (log entry 11). -/
def zeroStream (cw : CommandWord) : OperandStream :=
  match Opcode.ofCode? (opField cw) with
  | some .load => .bytes (List.replicate (aField cw).toNat 0)
  | some .build => .items (List.replicate (aField cw).toNat 0)
  | _ => .none

/-- The transfer whose low `nbits` bits are those of `w` and whose other bits are all 0. -/
def tableTransfer (nbits w : Nat) : Transfer where
  cw := BitVec.ofNat 72 (w % 2 ^ nbits)
  stream := zeroStream (BitVec.ofNat 72 (w % 2 ^ nbits))

/-- The instruction the decoder reads from that transfer. -/
def decodeTableWord (nbits w : Nat) : Option Instr :=
  match decode (tableTransfer nbits w) with
  | .command i => some i
  | .illegal _ => none
  | .unpresentable => none

/-! The assembler (30_encoding.md R67; what R67 leaves open is log entry 12). It has no part in a step. -/

/-- The mnemonic of an opcode (R63), as its letters. -/
def Opcode.mnemonic : Opcode → List Char
  | .new    => ['N', 'E', 'W']
  | .load   => ['L', 'O', 'A', 'D']
  | .clone  => ['C', 'L', 'O', 'N', 'E']
  | .getid  => ['G', 'E', 'T', 'I', 'D']
  | .setid  => ['S', 'E', 'T', 'I', 'D']
  | .getdlc => ['G', 'E', 'T', 'D', 'L', 'C']
  | .setdlc => ['S', 'E', 'T', 'D', 'L', 'C']
  | .geteff => ['G', 'E', 'T', 'E', 'F', 'F']
  | .seteff => ['S', 'E', 'T', 'E', 'F', 'F']
  | .getrtr => ['G', 'E', 'T', 'R', 'T', 'R']
  | .setrtr => ['S', 'E', 'T', 'R', 'T', 'R']
  | .geterr => ['G', 'E', 'T', 'E', 'R', 'R']
  | .seterr => ['S', 'E', 'T', 'E', 'R', 'R']
  | .prd    => ['P', 'R', 'D']
  | .pwr    => ['P', 'W', 'R']
  | .build  => ['B', 'U', 'I', 'L', 'D']

def Opcode.ofMnemonic? (w : List Char) : Option Opcode := Opcode.all.find? fun o => o.mnemonic == w

/-- The value of a decimal or hexadecimal digit. -/
def digitValue (c : Char) : Option Nat :=
  let n := c.toNat
  if 0x30 ≤ n ∧ n ≤ 0x39 then some (n - 0x30)
  else if 0x41 ≤ n ∧ n ≤ 0x46 then some (n - 0x41 + 10)
  else if 0x61 ≤ n ∧ n ≤ 0x66 then some (n - 0x61 + 10)
  else none

/-- A numeral in the given base, read on from the value `acc`. -/
def digits (base acc : Nat) : List Char → Option Nat
  | [] => some acc
  | c :: cs =>
    match digitValue c with
    | some d => if d < base then digits base (acc * base + d) cs else none
    | none => none

/-- "Numbers are decimal or `0x` hexadecimal." -/
def parseNumber : List Char → Option Nat
  | '0' :: 'x' :: d :: ds => digits 16 0 (d :: ds)
  | d :: ds => digits 10 0 (d :: ds)
  | [] => none

/-- A run of letters and digits: a number if it begins with a digit, else a word. -/
def chunkToken (cs : List Char) : Option (List Token) :=
  match cs with
  | [] => some []
  | c :: _ =>
    if 0x30 ≤ c.toNat ∧ c.toNat ≤ 0x39 then (parseNumber cs).map fun n => [.num n] else some [.word cs]

/-- The tokens of a line. `acc` is the run being read, last character first. -/
def lex (acc : List Char) : List Char → Option (List Token)
  | [] => chunkToken acc.reverse
  | c :: cs =>
    if c = ' ' ∨ c = ',' ∨ c = '[' ∨ c = ']' then
      match chunkToken acc.reverse, lex [] cs with
      | some now, some later =>
        if c = ',' then some (now ++ .comma :: later)
        else if c = '[' then some (now ++ .lbrack :: later)
        else if c = ']' then some (now ++ .rbrack :: later)
        else some (now ++ later)
      | _, _ => none
    else lex (c :: acc) cs

/-- A number that fits an operand field of 32 bits. -/
def wordOf? (n : Nat) : Option Word := if n < 2 ^ 32 then some (BitVec.ofNat 32 n) else none

/-- A number that fits a byte of LOAD's stream. -/
def byteOf? (n : Nat) : Option Byte := if n < 2 ^ 8 then some (BitVec.ofNat 8 n) else none

/-- `BOOL v`, `BYTE v`, `U16 v`, `U32 v`, `ENUM v`. -/
def valueItem (kind : List Char) (v : Word) : Option Item :=
  if kind = ['B', 'O', 'O', 'L'] then some (.bool v)
  else if kind = ['B', 'Y', 'T', 'E'] then some (.byte v)
  else if kind = ['U', '1', '6'] then some (.u16 v)
  else if kind = ['U', '3', '2'] then some (.u32 v)
  else if kind = ['E', 'N', 'U', 'M'] then some (.enum v)
  else none

/-- `OTHER t, v` with 0x06 ≤ t ≤ 0xFF. -/
def otherItem (t v : Nat) : Option Item :=
  match byteOf? t, wordOf? v with
  | some tag, some value => if 6 ≤ t then some (.other tag value) else none
  | _, _ => none

/-- One item at the head of the tokens, and the rest. A missing `v` is 0; a number after `OTHER t,` is its `v`. -/
def parseItem : List Token → Option (Item × List Token)
  | .word kind :: .num n :: .comma :: .num v :: rest =>
    if kind = ['O', 'T', 'H', 'E', 'R'] then (otherItem n v).map fun i => (i, rest)
    else none
  | .word kind :: .num n :: rest =>
    if kind = ['O', 'T', 'H', 'E', 'R'] then (otherItem n 0).map fun i => (i, rest)
    else ((wordOf? n).bind (valueItem kind)).map fun i => (i, rest)
  | .word kind :: rest =>
    if kind = ['N', 'U', 'L', 'L'] then some (.null, rest)
    else (valueItem kind 0).map fun i => (i, rest)
  | _ => none

/-- The items up to the closing bracket, which ends the line; the first argument bounds their number. -/
def parseItems : Nat → List Token → Option (List Item)
  | 0, _ => none
  | fuel + 1, toks =>
    match parseItem toks with
    | some (i, [.rbrack]) => some [i]
    | some (i, .comma :: rest) => (parseItems fuel rest).map fun is => i :: is
    | _ => none

/-- The bytes up to the closing bracket, which ends the line. -/
def parseBytes : List Token → Option (List Byte)
  | [.num n, .rbrack] => (byteOf? n).map fun b => [b]
  | .num n :: .comma :: rest =>
    match byteOf? n, parseBytes rest with
    | some b, some bs => some (b :: bs)
    | _, _ => none
  | _ => none

/-- The commands without an operand. -/
def bareCommand : Opcode → Option Instr
  | .new => some .new
  | .clone => some .clone
  | .getid => some .getid
  | .getdlc => some .getdlc
  | .geteff => some .geteff
  | .getrtr => some .getrtr
  | .geterr => some .geterr
  | _ => none

/-- The commands with the one operand A. -/
def operandCommand (o : Opcode) (a : Word) : Option Instr :=
  match o with
  | .setid => some (.setid a)
  | .setdlc => some (.setdlc a)
  | .seteff => some (.seteff a)
  | .setrtr => some (.setrtr a)
  | .seterr => some (.seterr a)
  | .prd => some (.prd a)
  | _ => none

/-- The forms of R67, on the tokens after the mnemonic. -/
def parseOperands (o : Opcode) : List Token → Option Instr
  | [] => bareCommand o
  | [.num n] => (wordOf? n).bind (operandCommand o)
  | [.num i, .comma, .num v] =>
    match o, wordOf? i, wordOf? v with
    | .pwr, some a, some b => some (.pwr a b)
    | _, _, _ => none
  | [.lbrack, .rbrack] =>
    match o with
    | .load => some (.load [])
    | .build => some (.build [])
    | _ => none
  | .lbrack :: rest =>
    match o with
    | .load => (parseBytes rest).map .load
    | .build => (parseItems rest.length rest).map .build
    | _ => none
  | _ => none

/-- One line of assembler text as a command. -/
def parseLine (line : List Char) : Option Instr :=
  match lex [] line with
  | some (.word w :: rest) => (Opcode.ofMnemonic? w).bind fun o => parseOperands o rest
  | _ => none

/-- One line of assembler text as the command word and stream it assembles to (R67). -/
def assemble (line : List Char) : Option Transfer := (parseLine line).map encode

end Sys2Proof
end

