-- ==== Sys2Proof/Machine/State.lean ====
section
/-! DEFINITION. The state of the codec and of its interface (10_state.md), as plain data. -/

namespace Sys2Proof.Machine

/-- STATUS (30_encoding.md R61). Codes 6 and 7 are never produced (93_implementation_defined.md U15), so they have no
constructor; the numbers are `Status.code` in Ops.lean. -/
inductive Status where
  | ok
  | invalidLength
  | outOfRange
  | indexOutOfRange
  | unsupportedType
  | illegalCommand
  deriving DecidableEq, Repr

/-- The answer to one command (10_state.md R29, 30_encoding.md R61, R62). -/
structure Response where
  status : Status
  data   : Word
  stream : List Byte
  deriving DecidableEq, Repr

/-- What the host presents on the interface (10_state.md R29): a command, or a reset between commands. -/
inductive HostInput where
  | command (t : Transfer)
  | reset
  deriving DecidableEq, Repr

/-- The frame buffer F (10_state.md R21, 20_memory.md R40): (offset, byte) pairs over offsets 0 to 15, in the
canonical form `Memory.wf` of Ops.lean (log entry 13, DEDUCED, safe). -/
abbrev Memory := List Host.Cell

/-- The three frame flags (10_state.md R22, R25). They are bits of F[3], stored nowhere else (R23). -/
inductive Flag where
  | eff
  | rtr
  | err
  deriving DecidableEq, Repr

/-- The machine. `frame` is the block's only architectural state (10_state.md R21). `input` and `output` are the
interface (R29, R30): what the host has presented and the codec has not yet taken, and the responses handed out,
each oldest first (log entries 1 and 3). `config` holds MAX_ITEMS (00_scope.md R7, log entry 6). `freeCount` is
the model's own: it numbers the unspecified DATA values drawn so far (log entry 4). -/
structure State where
  frame     : Memory
  input     : List HostInput
  output    : List Response
  config    : Config
  freeCount : Nat
  deriving DecidableEq, Repr

/-- Why the machine could stop with a fault: never. The block has no trap mechanism, and an error is only a STATUS
(60_exceptions.md R113, R122), so the type has no constructor and no step can answer a fault (log entry 15,
DEDUCED, unsafe if a realisation can hang). -/
inductive Fault where
  deriving DecidableEq, Repr

/-- Why the model gives no step. -/
inductive Refusal where
  /-- Raised by an arm of exec that has no meaning yet. There is none. Safe. -/
  | notModelled (mnemonic : String)
  /-- Raised by step when the host has presented nothing: the codec acts only when a command arrives
  (10_state.md R20; log entry 2, DESIGN CHOICE). Safe. -/
  | noCommand
  /-- Raised by step on a LOAD or BUILD whose stream does not have exactly A elements: the interface cannot present
  it (30_encoding.md R57; log entry 7, DEDUCED). Safe. -/
  | notPresentable
  /-- Raised by BUILD with more than MAX_ITEMS items: refused at the interface, no step (30_encoding.md R59). Safe. -/
  | tooManyItems
  deriving DecidableEq, Repr

/-- The outcome of a command. -/
abbrev Result := Host.Outcome State Fault Refusal

/-! One named update for each field. -/

def State.setFrame (s : State) (m : Memory) : State := { s with frame := m }

def State.setInput (s : State) (l : List HostInput) : State := { s with input := l }

/-- Hand one response to the host. -/
def State.answer (s : State) (r : Response) : State := { s with output := s.output ++ [r] }

/-- Count one free value as drawn. -/
def State.draw (s : State) : State := { s with freeCount := s.freeCount + 1 }

/-- A launch state (10_state.md R32): the given content of F and MAX_ITEMS, nothing presented, nothing answered. -/
def State.launch (c : Config) (m : Memory) : State where
  frame     := m
  input     := []
  output    := []
  config    := c
  freeCount := 0

/-- Right after reset every byte of F is 0x00 (10_state.md R31, 70_reset_and_hazards.md R130): nothing is listed.
The other fields' values are DESIGN CHOICE: log entries 1, 3, 4 and 6 (MAX_ITEMS unbounded, unsafe). -/
def State.reset : State := State.launch { maxItems := none } []

end Sys2Proof.Machine
end

