-- ==== Sys2Proof/Machine/Ops.lean ====
section
/-! DEFINITION. The named operations the meanings are written over: the bytes of F (00_scope.md R10, 20_memory.md
R40), the responses (30_encoding.md R61, R62), the one way a command fails (60_exceptions.md R113, R122) and reset. -/

namespace Sys2Proof.Machine

/-! The frame buffer. An offset is a `Fin 16`, so no operation can name a byte that does not exist (R40). -/

/-- What an offset that is not listed reads as: the reset contents of F (10_state.md R31). -/
def unlistedByte : Byte := 0x00

/-- The canonical form: offsets strictly rising, each below 16, no entry equal to what an unlisted offset reads as. -/
abbrev Memory.wf (m : Memory) : Prop :=
  m.Pairwise (fun a b => a.1 < b.1) ∧ ∀ c ∈ m, c.1 < 16 ∧ c.2 ≠ unlistedByte

/-- The byte listed at an offset, or the unlisted byte. -/
def lookup (k : Nat) : Memory → Byte
  | [] => unlistedByte
  | (a, b) :: rest => if a = k then b else lookup k rest

/-- Put a cell before the first cell of a higher offset. -/
def insertCell (c : Host.Cell) : Memory → Memory
  | [] => [c]
  | d :: rest => if c.1 < d.1 then c :: d :: rest else d :: insertCell c rest

/-- `F[k]` (00_scope.md R10). -/
def Memory.read (m : Memory) (k : Fin 16) : Byte := lookup k.val m

/-- `F[k] <- v` (00_scope.md R10), keeping the canonical form. -/
def Memory.write (m : Memory) (k : Fin 16) (v : Byte) : Memory :=
  let others := m.filter fun c => c.1 ≠ k.val
  if v = unlistedByte then others else insertCell (k.val, v) others

/-- Byte k of a state's frame buffer. -/
def State.byte (s : State) (k : Fin 16) : Byte := s.frame.read k

/-- The offsets 0 to 15 of F, upward. -/
def offsets : List (Fin 16) := [0, 1, 2, 3, 4, 5, 6, 7, 8, 9, 10, 11, 12, 13, 14, 15]

/-- `for k in ks: F[k] <- f k` (00_scope.md R10). -/
def storeEach (ks : List (Fin 16)) (f : Fin 16 → Byte) (m : Memory) : Memory :=
  ks.foldl (fun acc k => acc.write k (f k)) m

/-- All 16 bytes, F[0] first (20_memory.md R44). -/
def frameBytes (m : Memory) : List Byte := offsets.map m.read

/-- Write one bit of a byte and leave the other seven (`F[i][b] <- v` of 00_scope.md R10). -/
def setBit (v : Byte) (b : Nat) (x : Bool) : Byte :=
  if x then v ||| (1#8 <<< b) else v &&& ~~~(1#8 <<< b)

/-- F is cleared: NEW's and reset's effect (40_lifecycle.md R80, 70_reset_and_hazards.md R130). -/
def clearFrame (m : Memory) : Memory := storeEach offsets (fun _ => 0x00) m

/-- LOAD's copy: F[k] <- S[k] for k in 0..15 (40_lifecycle.md R81). -/
def copyIn (s : List Byte) (h : s.length = 16) (m : Memory) : Memory :=
  storeEach offsets (fun k => s[k.val]) m

/-- `F[4] <- n; for i in 8+n .. 15: F[i] <- 0x00`: the data-length write with its zero-fill (41_fields.md R88). SETRTR
1 uses it with n = 0 (R92). -/
def setLength (n : Byte) (m : Memory) : Memory :=
  storeEach (offsets.filter fun k => 8 + n.toNat ≤ k.val) (fun _ => 0x00) (m.write 4 n)

/-! Responses (30_encoding.md R61, R62). -/

/-- The 3-bit STATUS code (R61). -/
def Status.code : Status → BitVec 3
  | .ok => 0
  | .invalidLength => 1
  | .outOfRange => 2
  | .indexOutOfRange => 3
  | .unsupportedType => 4
  | .illegalCommand => 5

/-- `respond(data)` (00_scope.md R10): STATUS OK, the given DATA, an empty stream. -/
def respond (data : Word) (s : State) : Result :=
  .next (s.answer { status := .ok, data := data, stream := [] })

/-- `respond_stream(bytes)` (00_scope.md R10): STATUS OK, DATA the number of bytes, and the bytes. A count of 2^32 or
more has no stated DATA (40_lifecycle.md R82 says none arises in a run that MAX_ITEMS allows): a free value (log entry 5,
DESIGN CHOICE, safe). -/
def respondStream (bytes : List Byte) (s : State) : Result :=
  if bytes.length < 2 ^ 32 then
    .next (s.answer { status := .ok, data := BitVec.ofNat 32 bytes.length, stream := bytes })
  else
    .next (s.draw.answer { status := .ok, data := Config.freeData s.freeCount, stream := bytes })

/-- `raise E` (00_scope.md R10), the ONE way a command fails: the response says E with an empty stream, F is as it was
and the block goes on (60_exceptions.md R113, R122). DATA is unspecified (R62): a free value (log entry 4, DESIGN
CHOICE, safe). -/
def raiseError (e : Status) (s : State) : Result :=
  .next (s.draw.answer { status := e, data := Config.freeData s.freeCount, stream := [] })

/-- A command word with an unassigned OP (30_encoding.md R64, 60_exceptions.md R119). -/
def takeIllegalCommand (s : State) : Result := raiseError .illegalCommand s

/-- Whether the interface accepts a BUILD of n items (30_encoding.md R59, 00_scope.md R7). -/
def acceptsItems (c : Config) (n : Nat) : Bool :=
  match c.maxItems with
  | none => true
  | some most => decide (n ≤ most)

/-! Reset and power-on. -/

/-- Reset (70_reset_and_hazards.md R130): F is cleared, and there is no response (log entry 14, DEDUCED). -/
def takeReset (s : State) : Result := .next (s.setFrame (clearFrame s.frame))

/-- Before the first reset F is unspecified (10_state.md R32, 70_reset_and_hazards.md R132): every byte is a free
value. -/
def State.powerOn (c : Config) : State :=
  State.launch c (storeEach offsets (fun k => Config.powerOnByte k.val) [])

end Sys2Proof.Machine
end

