-- ==== Sys2Proof/Machine/Operands.lean ====
section
/-! DEFINITION. How each command reads its operand fields (30_encoding.md R58). No operand is scaled, shifted or
sign-extended. -/

namespace Sys2Proof.Machine

/-- A flag operand: A[0]; A[31:1] is ignored (R58, decision D8). -/
def flagOperand (a : Word) : Bool := a.getLsbD 0

/-- The byte operand of PWR: B[7:0]; B[31:8] is ignored (R58, decision D11). -/
def byteOperand (b : Word) : Byte := b.extractLsb' 0 8

/-- The length operand of SETDLC, an unsigned 32-bit integer (R58): A[7:0] when A is 0 to 8, else out of range
(41_fields.md R88). -/
def lengthOperand (a : Word) : Option Byte := if 8 < a.toNat then none else some (a.extractLsb' 0 8)

/-- The index operand of PRD and PWR, an unsigned 32-bit integer (R58), as the offset 8+A of F when A is 0 to 7, else
out of range (42_payload_clone.md R100, R101). -/
def payloadOffset (a : Word) : Option (Fin 16) :=
  if h : a.toNat < 8 then some ⟨8 + a.toNat, by omega⟩ else none

/-- `zext_32` of a byte (00_scope.md R9). -/
def zextByte (v : Byte) : Word := v.setWidth 32

/-- `zext_32` of one bit (00_scope.md R9). -/
def zextBit (x : Bool) : Word := (BitVec.ofBool x).setWidth 32

/-! The identifier (20_memory.md R42: little-endian; A[31:29] is ignored by R58, decision D7). -/

/-- `{F[3][4:0], F[2], F[1], F[0]}`, 29 bits (41_fields.md R85). -/
def readIdentifier (m : Memory) : BitVec 29 :=
  (m.read 3).extractLsb' 0 5 ++ m.read 2 ++ m.read 1 ++ m.read 0

/-- The identifier write (41_fields.md R86): F[3][7:5] comes from F[0][7:5] as it was at command entry, read before any
write (90_conflicts.md C2, C3). -/
def writeIdentifier (a : Word) (m : Memory) : Memory :=
  let old0 := m.read 0
  let m := m.write 0 (a.extractLsb' 0 8)
  let m := m.write 1 (a.extractLsb' 8 8)
  let m := m.write 2 (a.extractLsb' 16 8)
  m.write 3 (old0.extractLsb' 5 3 ++ a.extractLsb' 24 5)

end Sys2Proof.Machine
end

