-- ==== Sys2Proof/Machine/Flags.lean ====
section
/-! DEFINITION. The three frame flags, single bits of F[3] (10_state.md R22, R25; 41_fields.md section 3). They are
data of the frame, not condition codes: no command tests one to change its own behaviour. -/

namespace Sys2Proof.Machine

/-- The bit of F[3] a flag is (10_state.md R22). -/
def Flag.bit : Flag → Nat
  | .eff => 7
  | .rtr => 6
  | .err => 5

/-- A flag's value. -/
def readFlag (f : Flag) (m : Memory) : Bool := (m.read 3).getLsbD f.bit

/-- `F[3][b] <- x`: the other seven bits of F[3] are unchanged. -/
def writeFlag (f : Flag) (x : Bool) (m : Memory) : Memory := m.write 3 (setBit (m.read 3) f.bit x)

/-- A flag getter's response (R89, R91, R93): the flag in DATA[0], DATA[31:1] = 0. -/
def respondFlag (f : Flag) (s : State) : Result := respond (zextBit (readFlag f s.frame)) s

end Sys2Proof.Machine
end

