-- ==== Sys2Proof/Machine/Builder.lean ====
section
/-! DEFINITION. The payload builder (43_build_payload.md R105 to R112). -/

namespace Sys2Proof.Machine

/-- Whether an item is of a type the builder does not support (R112). -/
def unsupported : Item → Bool
  | .other _ _ => true
  | .null => false
  | .bool _ => false
  | .byte _ => false
  | .u16 _ => false
  | .u32 _ => false
  | .enum _ => false

/-- Bits lo+7 down to lo of a VALUE. -/
def valueByte (v : Word) (lo : Nat) : Byte := v.extractLsb' lo 8

/-- `emit` of one item (R106 to R111); multi-byte items are big-endian (20_memory.md R43). OTHER emits nothing: BUILD has
raised UnsupportedType before it emits (R105). -/
def emit : Item → List Byte
  | .null => []
  | .bool v => [if v.getLsbD 0 then 0x01 else 0x00]
  | .byte v => [valueByte v 0]
  | .u16 v => [valueByte v 8, valueByte v 0]
  | .u32 v => [valueByte v 24, valueByte v 16, valueByte v 8, valueByte v 0]
  | .enum v => [valueByte v 0]
  | .other _ _ => []

/-- The items serialized, in list order (R105). -/
def emitAll (items : List Item) : List Byte := items.flatMap emit

/-- BUILD (R105): more than MAX_ITEMS items are refused at the interface (30_encoding.md R59); any unsupported item raises
UnsupportedType, wherever it stands, and no byte is returned; else the serialized bytes, DATA their number. F is neither
read nor written. -/
def execBuild (items : List Item) (s : State) : Result :=
  if acceptsItems s.config items.length then
    if items.any unsupported then raiseError .unsupportedType s else respondStream (emitAll items) s
  else .refused .tooManyItems

end Sys2Proof.Machine
end

