-- ==== Sys2Proof/Machine/Fields.lean ====
section
/-! DEFINITION. The field accessors (41_fields.md R85 to R94). -/

namespace Sys2Proof.Machine

/-- GETID (R85): the 29-bit identifier, zero-extended; the flags never appear in it. -/
def execGetid (s : State) : Result := respond ((readIdentifier s.frame).setWidth 32) s

/-- SETID (R86): A[28:0] into the identifier, with the byte-3 aliasing quirk. -/
def execSetid (a : Word) (s : State) : Result := respond 0 (s.setFrame (writeIdentifier a s.frame))

/-- GETDLC (R87): F[4] as it is, no clamp and no check. -/
def execGetdlc (s : State) : Result := respond (zextByte (s.byte 4)) s

/-- SETDLC (R88): A above 8 raises OutOfRange; else F[4] <- A and the payload tail is zeroed. -/
def execSetdlc (a : Word) (s : State) : Result :=
  match lengthOperand a with
  | none => raiseError .outOfRange s
  | some n => respond 0 (s.setFrame (setLength n s.frame))

/-- GETEFF (R89). -/
def execGeteff (s : State) : Result := respondFlag .eff s

/-- SETEFF (R90): F[3][7] <- A[0]. -/
def execSeteff (a : Word) (s : State) : Result :=
  respond 0 (s.setFrame (writeFlag .eff (flagOperand a) s.frame))

/-- GETRTR (R91). -/
def execGetrtr (s : State) : Result := respondFlag .rtr s

/-- SETRTR (R92): F[3][6] <- A[0]; when A[0] = 1 the data length is forced to 0 with SETDLC's zero-fill. -/
def execSetrtr (a : Word) (s : State) : Result :=
  let m := writeFlag .rtr (flagOperand a) s.frame
  respond 0 (s.setFrame (if flagOperand a then setLength 0 m else m))

/-- GETERR (R93). -/
def execGeterr (s : State) : Result := respondFlag .err s

/-- SETERR (R94): F[3][5] <- A[0]. -/
def execSeterr (a : Word) (s : State) : Result :=
  respond 0 (s.setFrame (writeFlag .err (flagOperand a) s.frame))

end Sys2Proof.Machine
end

