-- ==== Sys2Proof/Machine/Lifecycle.lean ====
section
/-! DEFINITION. NEW and LOAD (40_lifecycle.md R80, R81). -/

namespace Sys2Proof.Machine

/-- NEW (R80): F[0..15] <- 0. -/
def execNew (s : State) : Result := respond 0 (s.setFrame (clearFrame s.frame))

/-- LOAD (R81): a buffer that is not 16 bytes raises InvalidLength; 16 bytes are copied unchanged, whatever they are. -/
def execLoad (buffer : List Byte) (s : State) : Result :=
  if h : buffer.length = 16 then respond 0 (s.setFrame (copyIn buffer h s.frame))
  else raiseError .invalidLength s

end Sys2Proof.Machine
end

