-- ==== Sys2Proof/Machine/Payload.lean ====
section
/-! DEFINITION. The payload view and the read-out (42_payload_clone.md R100 to R102). -/

namespace Sys2Proof.Machine

/-- PRD (R100): F[8+A], zero-extended, for A in 0..7, whatever DLC holds; else IndexOutOfRange. -/
def execPrd (a : Word) (s : State) : Result :=
  match payloadOffset a with
  | none => raiseError .indexOutOfRange s
  | some k => respond (zextByte (s.byte k)) s

/-- PWR (R101): F[8+A] <- B[7:0] for A in 0..7, whatever DLC holds; else IndexOutOfRange. -/
def execPwr (a b : Word) (s : State) : Result :=
  match payloadOffset a with
  | none => raiseError .indexOutOfRange s
  | some k => respond 0 (s.setFrame (s.frame.write k (byteOperand b)))

/-- CLONE (R102): all 16 bytes, F[0] first; DATA = 16. -/
def execClone (s : State) : Result := respondStream (frameBytes s.frame) s

end Sys2Proof.Machine
end

