-- ==== Sys2Proof/Machine/Dispatch.lean ====
section
/-! DEFINITION. One arm for each command (30_encoding.md R63). -/

namespace Sys2Proof.Machine

def exec (i : Instr) (s : State) : Host.Outcome State Fault Refusal :=
  match i with
  | .new => Sys2Proof.Machine.execNew s
  | .load buffer => Sys2Proof.Machine.execLoad buffer s
  | .clone => Sys2Proof.Machine.execClone s
  | .getid => Sys2Proof.Machine.execGetid s
  | .setid a => Sys2Proof.Machine.execSetid a s
  | .getdlc => Sys2Proof.Machine.execGetdlc s
  | .setdlc a => Sys2Proof.Machine.execSetdlc a s
  | .geteff => Sys2Proof.Machine.execGeteff s
  | .seteff a => Sys2Proof.Machine.execSeteff a s
  | .getrtr => Sys2Proof.Machine.execGetrtr s
  | .setrtr a => Sys2Proof.Machine.execSetrtr a s
  | .geterr => Sys2Proof.Machine.execGeterr s
  | .seterr a => Sys2Proof.Machine.execSeterr a s
  | .prd a => Sys2Proof.Machine.execPrd a s
  | .pwr a b => Sys2Proof.Machine.execPwr a b s
  | .build items => Sys2Proof.Machine.execBuild items s

end Sys2Proof.Machine
end

