-- ==== Sys2Proof/Machine/Step.lean ====
section
/-! DEFINITION. One step: the codec takes the oldest thing the host has presented (10_state.md R20, R29, R30). -/

namespace Sys2Proof.Machine

/-- One step of the machine. A command is decoded and executed whole (20_memory.md R46), an unassigned opcode answers
IllegalCommand (30_encoding.md R64), a reset is a step of its own (70_reset_and_hazards.md R130), and with nothing
presented the codec does not act (10_state.md R20). -/
def step (s : State) : Host.Outcome State Fault Refusal :=
  match s.input with
  | [] => .refused .noCommand
  | .reset :: later => takeReset (s.setInput later)
  | .command t :: later =>
    match decode t with
    | .command i => exec i (s.setInput later)
    | .illegal _ => takeIllegalCommand (s.setInput later)
    | .unpresentable => .refused .notPresentable

/-- The host presents, as the next thing the codec takes, the command whose low `nbits` bits are those of `w` and
whose other bits (of the command word and of the stream A asks for) are 0 (log entries 1 and 11). -/
def State.withFetchWord (s : State) (nbits w : Nat) : State :=
  s.setInput (.command (tableTransfer nbits w) :: s.input)

end Sys2Proof.Machine
end

