-- ==== Sys2Proof/Safety.lean ====
section
/-! DEFINITION. The terms claims are stated in: the invariant of a safe run, the two kinds of answer, and what each
command may read and write (20_memory.md R47), written from the spec's words and not over the machine's operations. -/

namespace Sys2Proof.Machine

/-- A response has the shape of 30_encoding.md R62: an error has an empty stream, and DATA counts the stream's bytes
(where 32 bits can hold the count). -/
def Response.wf (r : Response) : Prop :=
  (r.status ≠ .ok → r.stream = []) ∧
  (r.status = .ok → r.stream ≠ [] → r.stream.length < 2 ^ 32 → r.data.toNat = r.stream.length)

/-- The invariant: the frame list is canonical and names only offsets 0 to 15 (20_memory.md R40), and every response
handed out has the shape of R62. F itself has no invariant: any 16 bytes can be stored (10_state.md R33). -/
def State.Inv (s : State) : Prop := Memory.wf s.frame ∧ ∀ r ∈ s.output, r.wf

/-- From s to t the codec handed out one OK response with this DATA and stream, and touched neither what is still
presented nor MAX_ITEMS. It says nothing of F. -/
def RepliesOk (s t : State) (data : Word) (stream : List Byte) : Prop :=
  t.output = s.output ++ [{ status := .ok, data := data, stream := stream }] ∧
  t.input = s.input ∧ t.config = s.config

/-- From s to t the codec handed out one response of status e with an empty stream and SOME DATA (30_encoding.md R62:
unspecified), and nothing else of the frame or the interface changed (60_exceptions.md R113). -/
def RepliesError (s t : State) (e : Status) : Prop :=
  (∃ data, t.output = s.output ++ [{ status := e, data := data, stream := [] }]) ∧
  t.frame = s.frame ∧ t.input = s.input ∧ t.config = s.config

/-- Every command word with this OP, whatever its other bits and its stream, decodes to this command (30_encoding.md
R55, R56, R63). -/
def ReadsAs (op : Byte) (i : Instr) : Prop :=
  ∀ x : Transfer, x.cw.extractLsb' 0 8 = op → decode x = .command i

/-- Every command word with this OP decodes to the command of its A = CW[39:8] (30_encoding.md R55, R63). -/
def ReadsAsOfA (op : Byte) (i : Word → Instr) : Prop :=
  ∀ x : Transfer, x.cw.extractLsb' 0 8 = op → decode x = .command (i (x.cw.extractLsb' 8 32))

/-- MAX_ITEMS allows n items (00_scope.md R7). -/
def AllowsItems (s : State) (n : Nat) : Prop := ∀ most, s.config.maxItems = some most → n ≤ most

/-- What an item contributes to BUILD's output, as numbers (43_build_payload.md R106 to R111). An unsupported item
contributes nothing at all: no sequence is its emission. -/
def Emits : Item → List Byte → Prop
  | .null, p => p = []
  | .bool v, p => ∃ b : Byte, p = [b] ∧ b.toNat = v.toNat % 2
  | .byte v, p => ∃ b : Byte, p = [b] ∧ b.toNat = v.toNat % 2 ^ 8
  | .u16 v, p => ∃ b1 b0 : Byte, p = [b1, b0] ∧ b1.toNat * 2 ^ 8 + b0.toNat = v.toNat % 2 ^ 16
  | .u32 v, p => ∃ b3 b2 b1 b0 : Byte, p = [b3, b2, b1, b0] ∧
      b3.toNat * 2 ^ 24 + b2.toNat * 2 ^ 16 + b1.toNat * 2 ^ 8 + b0.toNat = v.toNat
  | .enum v, p => ∃ b : Byte, p = [b] ∧ b.toNat = v.toNat % 2 ^ 8
  | .other _ _, _ => False

/-- The bits of F that a command writes (20_memory.md R47, "writes"). -/
def writesBit : Instr → Fin 16 → Nat → Prop
  | .new, _, _ => True
  | .load buffer, _, _ => buffer.length = 16
  | .setid _, k, _ => k.val < 4
  | .setdlc a, k, _ => a.toNat ≤ 8 ∧ (k.val = 4 ∨ 8 + a.toNat ≤ k.val)
  | .seteff _, k, b => k.val = 3 ∧ b = 7
  | .setrtr a, k, b => (k.val = 3 ∧ b = 6) ∨ (a.getLsbD 0 = true ∧ (k.val = 4 ∨ 8 ≤ k.val))
  | .seterr _, k, b => k.val = 3 ∧ b = 5
  | .pwr a _, k, _ => a.toNat < 8 ∧ k.val = 8 + a.toNat
  | .clone, _, _ => False
  | .getid, _, _ => False
  | .getdlc, _, _ => False
  | .geteff, _, _ => False
  | .getrtr, _, _ => False
  | .geterr, _, _ => False
  | .prd _, _, _ => False
  | .build _, _, _ => False

/-- The bits of F whose value at command entry can affect what a command answers or writes (20_memory.md R47,
"reads"). -/
def readsBit : Instr → Fin 16 → Nat → Prop
  | .clone, _, _ => True
  | .getid, k, b => k.val < 3 ∨ (k.val = 3 ∧ b < 5)
  | .setid _, k, b => k.val = 0 ∧ 5 ≤ b
  | .getdlc, k, _ => k.val = 4
  | .geteff, k, b => k.val = 3 ∧ b = 7
  | .getrtr, k, b => k.val = 3 ∧ b = 6
  | .geterr, k, b => k.val = 3 ∧ b = 5
  | .prd a, k, _ => a.toNat < 8 ∧ k.val = 8 + a.toNat
  | .new, _, _ => False
  | .load _, _, _ => False
  | .setdlc _, _, _ => False
  | .seteff _, _, _ => False
  | .setrtr _, _, _ => False
  | .seterr _, _, _ => False
  | .pwr _ _, _, _ => False
  | .build _, _, _ => False

/-- `MemRead(off, n)` of 00_scope.md R10 as a number, its bytes `[F[off], …, F[off+n-1]]` given by name, least
significant first. -/
def memRead (m : Memory) : List (Fin 16) → Nat
  | [] => 0
  | k :: later => (m.read k).toNat + 2 ^ 8 * memRead m later

/-- Commands executed one after another (20_memory.md R50), stopping at the first that has no next state. -/
def execAll : List Instr → State → Result
  | [], s => .next s
  | i :: later, s =>
    match exec i s with
    | .next t => execAll later t
    | .fault r => .fault r
    | .refused r => .refused r

end Sys2Proof.Machine
end

