-- ==== Sys2Proof/Certificates/Slice0/Obligations.lean ====
section
/-! DEFINITION. The statements for the provers. Each docstring names the rule of spec/ it formalises, or says that a
clause is the model's choice and names the log entry. Every statement is about every state, reachable or not. Where a
docstring names a decision D<n> (92_eei_decisions.md), the spec chose that point itself and the model takes its text
(log entry 10); so it is throughout with the opcode numbers (D3) and with DATA = 0 from a setter (D23). -/

open Sys2Proof Sys2Proof.Machine

/-! The commands, one by one: what each word means, when it completes, and what it leaves unchanged. -/

/-- 40_lifecycle.md R80. -/
def Obligations.NewClearsTheFrame : Prop :=
  ReadsAs 0x01 .new ∧
  ∀ s, ∃ t, exec .new s = .next t ∧ RepliesOk s t 0 [] ∧ ∀ k, t.byte k = 0x00

/-- 40_lifecycle.md R81: 16 bytes are copied whatever they are, any other length is InvalidLength. -/
def Obligations.LoadCopiesSixteenBytesOrFails : Prop :=
  (∀ (x : Transfer) (buffer : List Byte), x.cw.extractLsb' 0 8 = 0x02 → x.stream = .bytes buffer →
    buffer.length = (x.cw.extractLsb' 8 32).toNat → decode x = .command (.load buffer)) ∧
  (∀ (s : State) (buffer : List Byte), buffer.length = 16 →
    ∃ t, exec (.load buffer) s = .next t ∧ RepliesOk s t 0 [] ∧ ∀ k : Fin 16, buffer[k.val]? = some (t.byte k)) ∧
  (∀ (s : State) (buffer : List Byte), buffer.length ≠ 16 →
    ∃ t, exec (.load buffer) s = .next t ∧ RepliesError s t .invalidLength)

/-- 42_payload_clone.md R102. That CLONE's stream is how the frame leaves the block is decision D13. -/
def Obligations.CloneReturnsTheSixteenBytes : Prop :=
  ReadsAs 0x03 .clone ∧
  ∀ s, ∃ t bytes, exec .clone s = .next t ∧ RepliesOk s t 16 bytes ∧ t.frame = s.frame ∧
    bytes.length = 16 ∧ ∀ k : Fin 16, bytes[k.val]? = some (s.byte k)

/-- 41_fields.md R85, bit by bit: DATA[7:0] = F[0], DATA[15:8] = F[1], DATA[23:16] = F[2], DATA[28:24] = F[3][4:0],
DATA[31:29] = 0. -/
def Obligations.GetIdReturnsTheIdentifier : Prop :=
  ReadsAs 0x10 .getid ∧
  ∀ s, ∃ t d, exec .getid s = .next t ∧ RepliesOk s t d [] ∧ t.frame = s.frame ∧
    ∀ i, d.getLsbD i =
      if i < 8 then (s.byte 0).getLsbD i
      else if i < 16 then (s.byte 1).getLsbD (i - 8)
      else if i < 24 then (s.byte 2).getLsbD (i - 16)
      else if i < 29 then (s.byte 3).getLsbD (i - 24)
      else false

/-- 41_fields.md R86, bit by bit: A[28:0] into the identifier, F[3][7:5] from F[0][7:5] at command entry, the other
twelve bytes unchanged. That A[31:29] is ignored is decision D7; that "high bits" are F[0][7:5] is the spec's inference. -/
def Obligations.SetIdWritesIdentifierAndAliasesFlags : Prop :=
  ReadsAsOfA 0x11 .setid ∧
  ∀ s a, ∃ t, exec (.setid a) s = .next t ∧ RepliesOk s t 0 [] ∧
    (∀ i < 8, (t.byte 0).getLsbD i = a.getLsbD i) ∧
    (∀ i < 8, (t.byte 1).getLsbD i = a.getLsbD (8 + i)) ∧
    (∀ i < 8, (t.byte 2).getLsbD i = a.getLsbD (16 + i)) ∧
    (∀ i < 5, (t.byte 3).getLsbD i = a.getLsbD (24 + i)) ∧
    (∀ i, 5 ≤ i → i < 8 → (t.byte 3).getLsbD i = (s.byte 0).getLsbD i) ∧
    ∀ k : Fin 16, 4 ≤ k.val → t.byte k = s.byte k

/-- 41_fields.md R87. That the value is neither clamped nor checked is decision D10. -/
def Obligations.GetDlcReturnsByteFour : Prop :=
  ReadsAs 0x12 .getdlc ∧
  ∀ s, ∃ t d, exec .getdlc s = .next t ∧ RepliesOk s t d [] ∧ t.frame = s.frame ∧ d.toNat = (s.byte 4).toNat

/-- 41_fields.md R88. -/
def Obligations.SetDlcWritesLengthAndZeroesTheTail : Prop :=
  ReadsAsOfA 0x13 .setdlc ∧
  (∀ (s : State) (a : Word), a.toNat ≤ 8 → ∃ t, exec (.setdlc a) s = .next t ∧ RepliesOk s t 0 [] ∧
    (t.byte 4).toNat = a.toNat ∧ (∀ k : Fin 16, 8 + a.toNat ≤ k.val → t.byte k = 0x00) ∧
    ∀ k : Fin 16, k ≠ 4 → k.val < 8 + a.toNat → t.byte k = s.byte k) ∧
  (∀ (s : State) (a : Word), 8 < a.toNat → ∃ t, exec (.setdlc a) s = .next t ∧ RepliesError s t .outOfRange)

/-- 41_fields.md R89, R91, R93: DATA[0] is the flag and DATA[31:1] is 0. -/
def Obligations.FlagGettersReturnTheirBit : Prop :=
  ReadsAs 0x14 .geteff ∧ ReadsAs 0x16 .getrtr ∧ ReadsAs 0x18 .geterr ∧
  ∀ s,
    (∃ t d, exec .geteff s = .next t ∧ RepliesOk s t d [] ∧ t.frame = s.frame ∧
      ∀ i, d.getLsbD i = (decide (i = 0) && (s.byte 3).getLsbD 7)) ∧
    (∃ t d, exec .getrtr s = .next t ∧ RepliesOk s t d [] ∧ t.frame = s.frame ∧
      ∀ i, d.getLsbD i = (decide (i = 0) && (s.byte 3).getLsbD 6)) ∧
    (∃ t d, exec .geterr s = .next t ∧ RepliesOk s t d [] ∧ t.frame = s.frame ∧
      ∀ i, d.getLsbD i = (decide (i = 0) && (s.byte 3).getLsbD 5))

/-- 41_fields.md R90, R94: one bit of F[3] from A[0], no other bit of F. That A[31:1] is ignored is decision D8. -/
def Obligations.SetEffAndSetErrWriteOneBit : Prop :=
  ReadsAsOfA 0x15 .seteff ∧ ReadsAsOfA 0x19 .seterr ∧
  ∀ s a,
    (∃ t, exec (.seteff a) s = .next t ∧ RepliesOk s t 0 [] ∧
      (∀ i, (t.byte 3).getLsbD i = if i = 7 then a.getLsbD 0 else (s.byte 3).getLsbD i) ∧
      ∀ k : Fin 16, k ≠ 3 → t.byte k = s.byte k) ∧
    (∃ t, exec (.seterr a) s = .next t ∧ RepliesOk s t 0 [] ∧
      (∀ i, (t.byte 3).getLsbD i = if i = 5 then a.getLsbD 0 else (s.byte 3).getLsbD i) ∧
      ∀ k : Fin 16, k ≠ 3 → t.byte k = s.byte k)

/-- 41_fields.md R92: A[0] into RTR; when it is 1 the data length and the whole payload become 0, else nothing else
changes. That SETRTR 1 zeroes the payload too is decision D9. -/
def Obligations.SetRtrWritesItsBitAndForcesLengthZero : Prop :=
  ReadsAsOfA 0x17 .setrtr ∧
  ∀ s a, ∃ t, exec (.setrtr a) s = .next t ∧ RepliesOk s t 0 [] ∧
    (∀ i, (t.byte 3).getLsbD i = if i = 6 then a.getLsbD 0 else (s.byte 3).getLsbD i) ∧
    (∀ k : Fin 16, k.val = 4 ∨ 8 ≤ k.val → t.byte k = if a.getLsbD 0 then 0x00 else s.byte k) ∧
    ∀ k : Fin 16, k ≠ 3 → k ≠ 4 → k.val < 8 → t.byte k = s.byte k

/-- 42_payload_clone.md R100. That every index below 8 is read whatever DLC holds is decision D11. -/
def Obligations.PrdReturnsThePayloadByteOrFails : Prop :=
  ReadsAsOfA 0x20 .prd ∧
  (∀ (s : State) (a : Word) (k : Fin 16), a.toNat < 8 → k.val = 8 + a.toNat →
    ∃ t d, exec (.prd a) s = .next t ∧ RepliesOk s t d [] ∧ t.frame = s.frame ∧ d.toNat = (s.byte k).toNat) ∧
  (∀ (s : State) (a : Word), 8 ≤ a.toNat → ∃ t, exec (.prd a) s = .next t ∧ RepliesError s t .indexOutOfRange)

/-- 42_payload_clone.md R101: B[7:0] to F[8+A], every other byte unchanged. That B[31:8] is ignored and that
DLC is not consulted is decision D11. -/
def Obligations.PwrWritesThePayloadByteOrFails : Prop :=
  (∀ x : Transfer, x.cw.extractLsb' 0 8 = 0x21 →
    decode x = .command (.pwr (x.cw.extractLsb' 8 32) (x.cw.extractLsb' 40 32))) ∧
  (∀ (s : State) (a b : Word), a.toNat < 8 → ∃ t, exec (.pwr a b) s = .next t ∧ RepliesOk s t 0 [] ∧
    (∀ k : Fin 16, k.val = 8 + a.toNat → (t.byte k).toNat = b.toNat % 2 ^ 8) ∧
    ∀ k : Fin 16, k.val ≠ 8 + a.toNat → t.byte k = s.byte k) ∧
  (∀ (s : State) (a b : Word), 8 ≤ a.toNat → ∃ t, exec (.pwr a b) s = .next t ∧ RepliesError s t .indexOutOfRange)

/-- 43_build_payload.md R106 to R111 and R105: what the items emit, in list order, is the response stream, and F is
unchanged; with an unsupported item anywhere the answer is UnsupportedType and no byte. That
BUILD is stateless is decision D14; the item word is decision D15. DATA is the number of bytes where 32 bits hold it;
where they do not, DATA is the model's free value (log entry 5). -/
def Obligations.BuildSerializesItsItemsOrFails : Prop :=
  (∀ (x : Transfer) (ws : List ItemWord), x.cw.extractLsb' 0 8 = 0x30 → x.stream = .items ws →
    ws.length = (x.cw.extractLsb' 8 32).toNat → decode x = .command (.build (ws.map decodeItem))) ∧
  (∀ (s : State) (items : List Item), AllowsItems s items.length → (∀ tag v, Item.other tag v ∉ items) →
    ∃ t d parts, exec (.build items) s = .next t ∧ RepliesOk s t d parts.flatten ∧ t.frame = s.frame ∧
      List.Forall₂ Emits items parts ∧ (parts.flatten.length < 2 ^ 32 → d.toNat = parts.flatten.length)) ∧
  (∀ (s : State) (items : List Item) (tag : Byte) (v : Word), AllowsItems s items.length →
    Item.other tag v ∈ items → ∃ t, exec (.build items) s = .next t ∧ RepliesError s t .unsupportedType)

/-- 30_encoding.md R59: above MAX_ITEMS a BUILD has no step; when MAX_ITEMS is unbounded, no BUILD is refused
(decision D21). -/
def Obligations.BuildAboveMaxItemsHasNoStep : Prop :=
  (∀ (s : State) (items : List Item) (most : Nat), s.config.maxItems = some most → most < items.length →
    exec (.build items) s = .refused .tooManyItems) ∧
  (∀ (s : State) (items : List Item), s.config.maxItems = none → ∃ t, exec (.build items) s = .next t)

/-- 30_encoding.md R60: the TAG selects the kind, and the kind keeps VALUE; tags 0x06 to 0xFF are OTHER
(decision D15). -/
def Obligations.ItemTagSelectsTheKind : Prop :=
  ∀ w : ItemWord,
    (w.extractLsb' 32 8 = 0x00 → decodeItem w = .null) ∧
    (w.extractLsb' 32 8 = 0x01 → decodeItem w = .bool (w.extractLsb' 0 32)) ∧
    (w.extractLsb' 32 8 = 0x02 → decodeItem w = .byte (w.extractLsb' 0 32)) ∧
    (w.extractLsb' 32 8 = 0x03 → decodeItem w = .u16 (w.extractLsb' 0 32)) ∧
    (w.extractLsb' 32 8 = 0x04 → decodeItem w = .u32 (w.extractLsb' 0 32)) ∧
    (w.extractLsb' 32 8 = 0x05 → decodeItem w = .enum (w.extractLsb' 0 32)) ∧
    (6 ≤ (w.extractLsb' 32 8).toNat → decodeItem w = .other (w.extractLsb' 32 8) (w.extractLsb' 0 32))

/-! Rules over all commands. -/

/-- 20_memory.md R47. A command changes no bit of F outside its "writes", and what it answers and writes depends on no
bit of F outside its "reads": two states that agree on those bits (and on MAX_ITEMS) get the same answer, and every bit
that is written comes out the same. (DATA of an error, and of a stream of 2^32 bytes or more, is a free value: log
entries 4 and 5.) -/
def Obligations.CommandsReadAndWriteOnlyTheirBits : Prop :=
  (∀ (i : Instr) (s t : State), exec i s = .next t →
    ∀ (k : Fin 16) (b : Nat), ¬ writesBit i k b → (t.byte k).getLsbD b = (s.byte k).getLsbD b) ∧
  (∀ (i : Instr) (s u t v : State), s.config = u.config → exec i s = .next t → exec i u = .next v →
    (∀ (k : Fin 16) (b : Nat), readsBit i k b → (s.byte k).getLsbD b = (u.byte k).getLsbD b) →
    (∃ r q, t.output = s.output ++ [r] ∧ v.output = u.output ++ [q] ∧ r.status = q.status ∧ r.stream = q.stream ∧
      (r.status = .ok → r.stream.length < 2 ^ 32 → r.data = q.data)) ∧
    ∀ (k : Fin 16) (b : Nat), writesBit i k b → b < 8 → (t.byte k).getLsbD b = (v.byte k).getLsbD b)

/-- 10_state.md R30 and 20_memory.md R50: a step on a presented command that has a next state takes that one command,
leaves the later ones in their order, and hands out exactly one response (decision D1; the input and output lists are the
model's, log entries 1 and 3). -/
def Obligations.EachCommandGetsOneResponseInOrder : Prop :=
  ∀ (s t : State) (x : Transfer) (later : List HostInput), s.input = .command x :: later → step s = .next t →
    (∃ r, t.output = s.output ++ [r]) ∧ t.input = later ∧ t.config = s.config

/-- 60_exceptions.md R113: a step whose response is an error leaves F as it was and returns no stream, and the block goes
on to the commands that follow (decision D19). -/
def Obligations.FailingCommandChangesNothing : Prop :=
  ∀ (s t : State) (x : Transfer) (later : List HostInput) (r : Response), s.input = .command x :: later →
    step s = .next t → t.output = s.output ++ [r] → r.status ≠ .ok →
    t.frame = s.frame ∧ r.stream = [] ∧ t.input = later ∧ t.config = s.config

/-- 60_exceptions.md R115, R116, R117, R118: which command raises which error, exactly when. No command of the map
raises IllegalCommand. -/
def Obligations.EachErrorHasItsOnlyCause : Prop :=
  ∀ (i : Instr) (s t : State) (r : Response), exec i s = .next t → t.output = s.output ++ [r] →
    (r.status = .invalidLength ↔ ∃ buffer, i = .load buffer ∧ buffer.length ≠ 16) ∧
    (r.status = .outOfRange ↔ ∃ a : Word, i = .setdlc a ∧ 8 < a.toNat) ∧
    (r.status = .indexOutOfRange ↔ ∃ a : Word, 8 ≤ a.toNat ∧ (i = .prd a ∨ ∃ b, i = .pwr a b)) ∧
    (r.status = .unsupportedType ↔ ∃ items tag v, i = .build items ∧ Item.other tag v ∈ items) ∧
    r.status ≠ .illegalCommand

/-- 60_exceptions.md R120, item 4: the commands without an error always answer OK. -/
def Obligations.CommandsWithoutErrorAnswerOk : Prop :=
  ∀ (i : Instr) (s : State), i.opcode ∉ [Opcode.load, .setdlc, .prd, .pwr, .build] →
    ∃ t r, exec i s = .next t ∧ t.output = s.output ++ [r] ∧ r.status = .ok

/-- 20_memory.md R48, first part: the reading commands leave F unchanged. -/
def Obligations.ReadsHaveNoSideEffect : Prop :=
  ∀ (i : Instr) (s t : State),
    i.opcode ∈ [Opcode.getid, .getdlc, .geteff, .getrtr, .geterr, .prd, .clone, .build] → exec i s = .next t →
    t.frame = s.frame

/-- 10_state.md R26: every command but NEW and LOAD leaves F[5], F[6] and F[7] unchanged
(decision D26). -/
def Obligations.ReservedBytesKeptByFieldCommands : Prop :=
  ∀ (i : Instr) (s t : State), i.opcode ≠ .new → i.opcode ≠ .load → exec i s = .next t →
    t.byte 5 = s.byte 5 ∧ t.byte 6 = s.byte 6 ∧ t.byte 7 = s.byte 7

/-- 10_state.md R22 (field DLC: 9–255 storable by LOAD only): a data length of at most 8 stays so under every other
command. -/
def Obligations.OnlyLoadStoresALengthAboveEight : Prop :=
  ∀ (i : Instr) (s t : State), i.opcode ≠ .load → exec i s = .next t → (s.byte 4).toNat ≤ 8 → (t.byte 4).toNat ≤ 8

/-- 20_memory.md R49: NEW, LOAD, SETDLC, SETEFF, SETRTR, SETERR and PWR leave the same F when issued twice; SETID does
not in general: a second SETID v writes v[7:5] into the flags, a third changes nothing more. -/
def Obligations.RepeatingACommand : Prop :=
  (∀ (i : Instr) (s t u : State),
    i.opcode ∈ [Opcode.new, .load, .setdlc, .seteff, .setrtr, .seterr, .pwr] →
    exec i s = .next t → exec i t = .next u → ∀ k, u.byte k = t.byte k) ∧
  (∀ (v : Word) (s t u w : State), exec (.setid v) s = .next t → exec (.setid v) t = .next u →
    exec (.setid v) u = .next w →
    (∀ i, 5 ≤ i → i < 8 → (t.byte 3).getLsbD i = (s.byte 0).getLsbD i ∧ (u.byte 3).getLsbD i = v.getLsbD i) ∧
    ∀ k, w.byte k = u.byte k) ∧
  (∀ (s t u : State), (∀ k, s.byte k = 0x00) → exec (.setid 0x12345678) s = .next t →
    exec (.setid 0x12345678) t = .next u → t.byte 3 = 0x12 ∧ u.byte 3 = 0x72)

/-- 41_fields.md R86, corner case (the source's round-trip property): SETID v, then GETID, returns v[28:0] whatever F
held before. -/
def Obligations.SetIdThenGetIdRoundTrips : Prop :=
  ∀ (s : State) (v : Word), ∃ t u d, exec (.setid v) s = .next t ∧ exec .getid t = .next u ∧
    RepliesOk t u d [] ∧ d.toNat = v.toNat % 2 ^ 29

/-- 41_fields.md R88, corner case (the source's property): after SETDLC n, PRD i returns 0 for every i in [n, 8). -/
def Obligations.TailReadsZeroAfterSetDlc : Prop :=
  ∀ (s : State) (n i : Word), n.toNat ≤ i.toNat → i.toNat < 8 →
    ∃ t u, exec (.setdlc n) s = .next t ∧ exec (.prd i) t = .next u ∧ RepliesOk t u 0 []

/-- 40_lifecycle.md R81 and 42_payload_clone.md R102: LOAD then CLONE returns the buffer, and a LOAD (into any state u)
of what CLONE returned restores every byte. -/
def Obligations.LoadAndCloneAreInverse : Prop :=
  (∀ (s : State) (buffer : List Byte), buffer.length = 16 →
    ∃ t u, exec (.load buffer) s = .next t ∧ exec .clone t = .next u ∧ RepliesOk t u 16 buffer) ∧
  (∀ s u : State, ∃ t bytes v, exec .clone s = .next t ∧ RepliesOk s t 16 bytes ∧
    exec (.load bytes) u = .next v ∧ ∀ k, v.byte k = s.byte k)

/-- 20_memory.md R42: the identifier GETID returns is `MemRead(0, 4)[28:0]`, the little-endian read of bytes 0 to 3. -/
def Obligations.IdentifierIsALittleEndianRead : Prop :=
  ∀ s, ∃ t d, exec .getid s = .next t ∧ RepliesOk s t d [] ∧
    d.toNat = memRead s.frame [0, 1, 2, 3] % 2 ^ 29

/-- 20_memory.md R43: a 16-bit item emits VALUE[15:8] and then VALUE[7:0]; a 32-bit item emits its four bytes most
significant first, the opposite order to that in which SETID stores the same value as an identifier (shown where F[3] holds
the value's top byte whole: v below 2^29, and F[0][7:5] = 0 at entry). -/
def Obligations.BuilderIsBigEndianIdentifierLittleEndian : Prop :=
  (∀ (s : State) (v : Word), AllowsItems s 1 → ∃ t b1 b0, exec (.build [.u16 v]) s = .next t ∧
    RepliesOk s t 2 [b1, b0] ∧ (∀ i < 8, b1.getLsbD i = v.getLsbD (8 + i)) ∧ ∀ i < 8, b0.getLsbD i = v.getLsbD i) ∧
  (∀ (s : State) (v : Word), AllowsItems s 1 → ∃ t b3 b2 b1 b0, exec (.build [.u32 v]) s = .next t ∧
    RepliesOk s t 4 [b3, b2, b1, b0] ∧ (∀ i < 8, b3.getLsbD i = v.getLsbD (24 + i)) ∧
    (∀ i < 8, b2.getLsbD i = v.getLsbD (16 + i)) ∧ (∀ i < 8, b1.getLsbD i = v.getLsbD (8 + i)) ∧
    (∀ i < 8, b0.getLsbD i = v.getLsbD i) ∧
    (v.toNat < 2 ^ 29 → (s.byte 0).toNat < 2 ^ 5 → ∃ u, exec (.setid v) s = .next u ∧
      [u.byte 3, u.byte 2, u.byte 1, u.byte 0] = [b3, b2, b1, b0]))

/-- What 10_state.md R24 says of GETID, SETID and SETEFF: GETID returns the same 29 bits and SETID writes the same frame
whatever EFF holds, the EFF that SETID leaves does not depend on the identifier it is given, and SETEFF does not change
what GETID returns. -/
def Obligations.EffAndIdentifierAreIndependent : Prop :=
  (∀ s u : State, (∀ k, k ≠ 3 → s.byte k = u.byte k) →
    (∀ i, i ≠ 7 → (s.byte 3).getLsbD i = (u.byte 3).getLsbD i) →
    (∃ t v d, exec .getid s = .next t ∧ exec .getid u = .next v ∧ RepliesOk s t d [] ∧ RepliesOk u v d []) ∧
    ∀ a, ∃ t v, exec (.setid a) s = .next t ∧ exec (.setid a) u = .next v ∧ ∀ k, t.byte k = v.byte k) ∧
  (∀ (s : State) (a b : Word), ∃ t v, exec (.setid a) s = .next t ∧ exec (.setid b) s = .next v ∧
    (t.byte 3).getLsbD 7 = (v.byte 3).getLsbD 7) ∧
  (∀ (s : State) (a : Word), ∃ t u v d, exec (.seteff a) s = .next t ∧ exec .getid s = .next u ∧
    exec .getid t = .next v ∧ RepliesOk s u d [] ∧ RepliesOk t v d [])

/-- 40_lifecycle.md R82: BUILD's output counts at most four bytes for each item. -/
def Obligations.BuildOutputIsAtMostFourBytesAnItem : Prop :=
  ∀ (s t : State) (items : List Item) (r : Response), exec (.build items) s = .next t →
    t.output = s.output ++ [r] → r.stream.length ≤ 4 * items.length

/-- 70_reset_and_hazards.md R136, R137: the recommended order NEW; SETID; SETEFF; SETERR; SETRTR; SETDLC; PWR … builds
the frame: the identifier, each flag, the data length and each payload byte are what was set, and everything else is 0,
whatever F held before. -/
def Obligations.RecommendedOrderBuildsTheFrame : Prop :=
  ∀ (s : State) (v e r f n : Word) (payload : List Byte), n.toNat ≤ 8 → payload.length = n.toNat →
    ∃ t, execAll ([.new, .setid v, .seteff e, .seterr r, .setrtr f, .setdlc n] ++
        (List.range payload.length).map fun i =>
          .pwr (BitVec.ofNat 32 i) ((payload.getD i 0).setWidth 32)) s = .next t ∧
      readIdentifier t.frame = v.extractLsb' 0 29 ∧
      (t.byte 3).getLsbD 7 = e.getLsbD 0 ∧ (t.byte 3).getLsbD 6 = f.getLsbD 0 ∧
      (t.byte 3).getLsbD 5 = r.getLsbD 0 ∧ (t.byte 4).toNat = n.toNat ∧
      (∀ k : Fin 16, 5 ≤ k.val → k.val < 8 → t.byte k = 0x00) ∧
      ∀ k : Fin 16, 8 ≤ k.val → t.byte k = payload.getD (k.val - 8) 0x00

/-! Encoding. -/

/-- 30_encoding.md R55, R57, R60, R63, R66: decoding an encoded well-formed command gives it back, with every operand
and every item. -/
def Obligations.DecodeOfEncodeIsTheCommand : Prop :=
  ∀ i : Instr, i.wf = true → decode (encode i) = .command i

/-- What the decoder gives is well formed, and its encoding has the same OP, the same A where the command uses A and
the same B where it uses B (30_encoding.md R56, R57). -/
def Obligations.EncodeOfDecodeKeepsTheUsedFields : Prop :=
  ∀ (x : Transfer) (i : Instr), decode x = .command i →
    i.wf = true ∧ (encode i).cw.extractLsb' 0 8 = x.cw.extractLsb' 0 8 ∧
    (i.opcode ∈ [Opcode.load, .build, .setid, .setdlc, .seteff, .setrtr, .seterr, .prd, .pwr] →
      (encode i).cw.extractLsb' 8 32 = x.cw.extractLsb' 8 32) ∧
    (i.opcode = .pwr → (encode i).cw.extractLsb' 40 32 = x.cw.extractLsb' 40 32)

/-- 30_encoding.md R56: a field a command does not use has no effect. B matters to 0x21 alone, A to the nine opcodes
listed. The clause that the stream matters to 0x02 and 0x30 alone is the model's reading of R80 (log entry 8). -/
def Obligations.UnusedFieldsHaveNoEffect : Prop :=
  ∀ x y : Transfer, x.cw.extractLsb' 0 8 = y.cw.extractLsb' 0 8 →
    (x.cw.extractLsb' 0 8 ∈ [0x02#8, 0x30, 0x11, 0x13, 0x15, 0x17, 0x19, 0x20, 0x21] →
      x.cw.extractLsb' 8 32 = y.cw.extractLsb' 8 32) →
    (x.cw.extractLsb' 0 8 = 0x21 → x.cw.extractLsb' 40 32 = y.cw.extractLsb' 40 32) →
    (x.cw.extractLsb' 0 8 ∈ [0x02#8, 0x30] → x.stream = y.stream) →
    decode x = decode y

/-- 30_encoding.md R64 and R65: exactly the OP values that R63 does not list are illegal (decision D17). -/
def Obligations.UnassignedOpcodesAreIllegal : Prop :=
  ∀ x : Transfer, (∃ op, decode x = .illegal op) ↔
    x.cw.extractLsb' 0 8 ∉ [0x01#8, 0x02, 0x03, 0x10, 0x11, 0x12, 0x13, 0x14, 0x15, 0x16, 0x17, 0x18, 0x19,
      0x20, 0x21, 0x30]

/-- 30_encoding.md R64 and 60_exceptions.md R119: a step on a word with an unassigned OP answers IllegalCommand and
changes nothing, whatever A, B and the stream are (decision D17). -/
def Obligations.IllegalCommandIsAnsweredAndChangesNothing : Prop :=
  ∀ (s : State) (x : Transfer) (later : List HostInput), s.input = .command x :: later →
    x.cw.extractLsb' 0 8 ∉ [0x01#8, 0x02, 0x03, 0x10, 0x11, 0x12, 0x13, 0x14, 0x15, 0x16, 0x17, 0x18, 0x19,
      0x20, 0x21, 0x30] →
    ∃ t, step s = .next t ∧ RepliesError (s.setInput later) t .illegalCommand

/-- 30_encoding.md R66: the length of a command is found from OP and A alone, and a LOAD or BUILD that decodes has
exactly that many bits (decision D2). -/
def Obligations.CommandLengthComesFromOpAndA : Prop :=
  (∀ cw : CommandWord, commandBits cw =
    if cw.extractLsb' 0 8 = 0x02 then 72 + 8 * (cw.extractLsb' 8 32).toNat
    else if cw.extractLsb' 0 8 = 0x30 then 72 + 40 * (cw.extractLsb' 8 32).toNat
    else 72) ∧
  (∀ (x : Transfer) (i : Instr), decode x = .command i → i.opcode ∈ [Opcode.load, .build] →
    72 + x.stream.bits = commandBits x.cw)

/-- 30_encoding.md R57: a LOAD or BUILD whose stream does not have exactly A elements cannot be presented. That such a
transfer is a refusal of step, and that an empty stream has no kind, is the model's reading (log entry 7). That nothing
else is turned away so, not even another command presented with a stream (R57 says none carries one), is the model's
choice (log entry 8). -/
def Obligations.OnlyAWrongStreamLengthIsUnpresentable : Prop :=
  ∀ x : Transfer, decode x = .unpresentable ↔
    (x.cw.extractLsb' 0 8 = 0x02 ∧
      ∀ s, x.stream.asBytes? = some s → s.length ≠ (x.cw.extractLsb' 8 32).toNat) ∨
    (x.cw.extractLsb' 0 8 = 0x30 ∧
      ∀ s, x.stream.asItems? = some s → s.length ≠ (x.cw.extractLsb' 8 32).toNat)

/-- A few words written out from 30_encoding.md R55, R63, R67, one for each family: NEW with ignored fields (vector
LC-9), SETID 0x123, PWR 1, 0xCD and an empty BUILD. -/
def Obligations.WrittenOutWordsDecode : Prop :=
  decode ⟨0x12345678FFFFFFFF01, .none⟩ = .command .new ∧
  decode ⟨0x000000000000012311, .none⟩ = .command (.setid 0x123) ∧
  decode ⟨0x000000CD0000000121, .none⟩ = .command (.pwr 1 0xCD) ∧
  decode ⟨0x000000000000000030, .items []⟩ = .command (.build [])

/-- 30_encoding.md R67: the two examples of the assembler syntax. -/
def Obligations.AssemblerExamples : Prop :=
  assemble ['S', 'E', 'T', 'I', 'D', ' ', '0', 'x', '1', '2', '3'] = some ⟨0x000000000000012311, .none⟩ ∧
  assemble ['P', 'W', 'R', ' ', '1', ',', ' ', '0', 'x', 'C', 'D'] = some ⟨0x000000CD0000000121, .none⟩

/-! The machine as a whole. -/

/-- A step runs the decoded command: it takes the oldest command presented and is exec of what that decodes to, at the
state with that command taken off the interface. -/
def Obligations.StepRunsTheDecodedCommand : Prop :=
  ∀ (s : State) (x : Transfer) (later : List HostInput) (i : Instr), s.input = .command x :: later →
    decode x = .command i → step s = exec i (s.setInput later)

/-- What `withFetchWord` places is what the next step runs, at the state it was placed in (log entry 11). -/
def Obligations.PlacedWordRunsNext : Prop :=
  ∀ (s : State) (nbits w : Nat) (i : Instr), decodeTableWord nbits w = some i →
    step (s.withFetchWord nbits w) = exec i s

/-- 70_reset_and_hazards.md R130: a reset taken between commands zeroes F, produces no response, and has the same
effect on F as NEW (decision D5; reset as an input of the run is log entry 14). -/
def Obligations.ResetZeroesTheFrameWithoutResponse : Prop :=
  ∀ (s : State) (later : List HostInput), s.input = .reset :: later →
    ∃ t u, step s = .next t ∧ (∀ k, t.byte k = 0x00) ∧ t.output = s.output ∧ t.input = later ∧
      t.config = s.config ∧ exec .new s = .next u ∧ u.frame = t.frame

/-- 10_state.md R31: every byte is 0x00 after reset, and NEW gives the same frame (as data, from every canonical
frame; `StepKeepsTheInvariant` states that canonical frames stay so). The reset values are decision D5. -/
def Obligations.ResetStateIsTheZeroFrame : Prop :=
  (∀ k, State.reset.byte k = 0x00) ∧
  ∀ s : State, Memory.wf s.frame → ∃ t, exec .new s = .next t ∧ t.frame = State.reset.frame

/-- With nothing presented the codec has no step (10_state.md R20). That this is a refusal is the model's choice (log
entry 2). -/
def Obligations.NothingPresentedHasNoStep : Prop :=
  ∀ s : State, s.input = [] → step s = .refused .noCommand

/-- 60_exceptions.md R122, R113: every command a step takes completes, unless it is a BUILD above MAX_ITEMS (30_encoding.md
R59) or cannot be presented (R57). -/
def Obligations.EveryPresentableCommandCompletes : Prop :=
  ∀ (s : State) (x : Transfer) (later : List HostInput), s.input = .command x :: later → decode x ≠ .unpresentable →
    (∀ items, decode x = .command (.build items) → AllowsItems s items.length) → ∃ t, step s = .next t

/-- The invariant: the frame list stays canonical and names only offsets 0 to 15 (20_memory.md R40), and every response
handed out has the shape of 30_encoding.md R62. -/
def Obligations.StepKeepsTheInvariant : Prop :=
  ∀ s t : State, s.Inv → step s = .next t → t.Inv

/-- The invariant holds right after reset, and before the first reset whatever F is (10_state.md R32). -/
def Obligations.LaunchStatesMeetTheInvariant : Prop :=
  State.reset.Inv ∧ ∀ c, (State.powerOn c).Inv
end

