-- ==== Sys2Proof/Laws/State.lean ====
section
/-! SUPPORT. One lemma for each field of each update of State. -/

namespace Sys2Proof.Machine

variable (s : State) (m : Memory) (l : List HostInput) (r : Response) (c : Config)

@[simp] theorem setFrame_frame : (s.setFrame m).frame = m := rfl
@[simp] theorem setFrame_input : (s.setFrame m).input = s.input := rfl
@[simp] theorem setFrame_output : (s.setFrame m).output = s.output := rfl
@[simp] theorem setFrame_config : (s.setFrame m).config = s.config := rfl
@[simp] theorem setFrame_freeCount : (s.setFrame m).freeCount = s.freeCount := rfl

@[simp] theorem setInput_frame : (s.setInput l).frame = s.frame := rfl
@[simp] theorem setInput_input : (s.setInput l).input = l := rfl
@[simp] theorem setInput_output : (s.setInput l).output = s.output := rfl
@[simp] theorem setInput_config : (s.setInput l).config = s.config := rfl
@[simp] theorem setInput_freeCount : (s.setInput l).freeCount = s.freeCount := rfl

@[simp] theorem answer_frame : (s.answer r).frame = s.frame := rfl
@[simp] theorem answer_input : (s.answer r).input = s.input := rfl
@[simp] theorem answer_output : (s.answer r).output = s.output ++ [r] := rfl
@[simp] theorem answer_config : (s.answer r).config = s.config := rfl
@[simp] theorem answer_freeCount : (s.answer r).freeCount = s.freeCount := rfl

@[simp] theorem draw_frame : s.draw.frame = s.frame := rfl
@[simp] theorem draw_input : s.draw.input = s.input := rfl
@[simp] theorem draw_output : s.draw.output = s.output := rfl
@[simp] theorem draw_config : s.draw.config = s.config := rfl
@[simp] theorem draw_freeCount : s.draw.freeCount = s.freeCount + 1 := rfl

@[simp] theorem launch_frame : (State.launch c m).frame = m := rfl
@[simp] theorem launch_input : (State.launch c m).input = [] := rfl
@[simp] theorem launch_output : (State.launch c m).output = [] := rfl
@[simp] theorem launch_config : (State.launch c m).config = c := rfl

theorem byte_eq (k : Fin 16) : s.byte k = s.frame.read k := rfl

@[simp] theorem byte_setFrame (k : Fin 16) : (s.setFrame m).byte k = m.read k := rfl
@[simp] theorem byte_setInput (k : Fin 16) : (s.setInput l).byte k = s.byte k := rfl
@[simp] theorem byte_answer (k : Fin 16) : (s.answer r).byte k = s.byte k := rfl
@[simp] theorem byte_draw (k : Fin 16) : s.draw.byte k = s.byte k := rfl

end Sys2Proof.Machine
end

