-- ==== Sys2Proof/Laws/Memory.lean ====
section
/-! SUPPORT. The laws of the frame buffer: a read after a write, stores over a list of offsets, and the canonical form. -/

namespace Sys2Proof.Machine

theorem lookup_filter_same (m : Memory) (k : Nat) : lookup k (m.filter fun c => c.1 ≠ k) = unlistedByte := by
  induction m with
  | nil => rfl
  | cons c rest ih => by_cases h : c.1 = k <;> simp_all [lookup]

theorem lookup_filter_other (m : Memory) {j k : Nat} (h : j ≠ k) :
    lookup j (m.filter fun c => c.1 ≠ k) = lookup j m := by
  induction m with
  | nil => rfl
  | cons c rest ih =>
    by_cases hk : c.1 = k
    · have hj : c.1 ≠ j := fun e => h (e.symm.trans hk)
      simp_all [lookup]
    · by_cases hj : c.1 = j <;> simp_all [lookup]

theorem lookup_insertCell_other (m : Memory) (c : Host.Cell) {j : Nat} (h : c.1 ≠ j) :
    lookup j (insertCell c m) = lookup j m := by
  induction m with
  | nil => simp [insertCell, lookup, h]
  | cons d rest ih =>
    simp only [insertCell]
    split
    · simp [lookup, h]
    · simp [lookup, ih]

theorem lookup_insertCell_same (m : Memory) (k : Nat) (v : Byte) (h : ∀ d ∈ m, d.1 ≠ k) :
    lookup k (insertCell (k, v) m) = v := by
  induction m with
  | nil => simp [insertCell, lookup]
  | cons d rest ih =>
    simp only [insertCell]
    split
    · simp [lookup]
    · simp_all [lookup]

/-- One write changes one byte, whatever form the list is in. -/
@[simp] theorem read_write (m : Memory) (k j : Fin 16) (v : Byte) :
    (m.write k v).read j = if j = k then v else m.read j := by
  unfold Memory.write Memory.read
  by_cases h : j = k
  · subst h
    by_cases hv : v = unlistedByte
    · simp only [if_true, lookup_filter_same, hv]
    · simp only [if_neg hv, if_true]
      exact lookup_insertCell_same _ _ _ (by simp)
  · have hn : j.val ≠ k.val := fun e => h (Fin.ext e)
    by_cases hv : v = unlistedByte
    · simp only [if_pos hv, if_neg h]
      exact lookup_filter_other m hn
    · simp only [if_neg hv, if_neg h]
      rw [lookup_insertCell_other _ _ (Ne.symm hn)]
      exact lookup_filter_other m hn

@[simp] theorem read_nil (k : Fin 16) : Memory.read [] k = 0x00 := rfl

@[simp] theorem read_storeEach (ks : List (Fin 16)) (f : Fin 16 → Byte) (m : Memory) (j : Fin 16) :
    (storeEach ks f m).read j = if j ∈ ks then f j else m.read j := by
  unfold storeEach
  induction ks generalizing m with
  | nil => simp
  | cons k ks ih =>
    rw [List.foldl_cons, ih]
    by_cases h : j ∈ ks
    · simp [h]
    · by_cases hk : j = k <;> simp [h, hk]

@[simp] theorem mem_offsets (k : Fin 16) : k ∈ offsets := by revert k; decide

@[simp] theorem read_clearFrame (m : Memory) (k : Fin 16) : (clearFrame m).read k = 0x00 := by
  simp [clearFrame]

@[simp] theorem read_copyIn (s : List Byte) (h : s.length = 16) (m : Memory) (k : Fin 16) :
    (copyIn s h m).read k = s[k.val] := by
  simp [copyIn]

theorem read_setLength (n : Byte) (m : Memory) (k : Fin 16) :
    (setLength n m).read k = if 8 + n.toNat ≤ k.val then 0x00 else if k = 4 then n else m.read k := by
  simp [setLength]

/-! The canonical form. -/

theorem mem_insertCell {c d : Host.Cell} {m : Memory} (h : d ∈ insertCell c m) : d = c ∨ d ∈ m := by
  induction m with
  | nil => simpa [insertCell] using h
  | cons e rest ih =>
    simp only [insertCell] at h
    split at h
    · simpa using h
    · rcases List.mem_cons.mp h with h | h
      · simp [h]
      · rcases ih h with h | h <;> simp [h]

theorem insertCell_pairwise {c : Host.Cell} {m : Memory} (hm : m.Pairwise fun a b => a.1 < b.1)
    (hc : ∀ d ∈ m, d.1 ≠ c.1) : (insertCell c m).Pairwise fun a b => a.1 < b.1 := by
  induction m with
  | nil => simp [insertCell]
  | cons d rest ih =>
    rw [List.pairwise_cons] at hm
    simp only [insertCell]
    split
    · rename_i hlt
      refine List.pairwise_cons.mpr ⟨fun e he => ?_, List.pairwise_cons.mpr hm⟩
      rcases List.mem_cons.mp he with rfl | he
      · exact hlt
      · exact Nat.lt_trans hlt (hm.1 e he)
    · rename_i hnlt
      have hne := hc d (by simp)
      refine List.pairwise_cons.mpr ⟨fun e he => ?_, ih hm.2 fun e he => hc e (by simp [he])⟩
      rcases mem_insertCell he with rfl | he
      · omega
      · exact hm.1 e he

/-- Every write keeps the canonical form. -/
theorem write_wf {m : Memory} (h : Memory.wf m) (k : Fin 16) (v : Byte) : Memory.wf (m.write k v) := by
  have hp : (m.filter fun c => c.1 ≠ k.val).Pairwise fun a b => a.1 < b.1 := h.1.filter _
  have ha : ∀ c ∈ m.filter (fun c => c.1 ≠ k.val), c.1 < 16 ∧ c.2 ≠ unlistedByte :=
    fun c hc => h.2 c (List.mem_of_mem_filter hc)
  unfold Memory.write
  by_cases hv : v = unlistedByte
  · simp only [if_pos hv]; exact ⟨hp, ha⟩
  · simp only [if_neg hv]
    refine ⟨insertCell_pairwise hp (by simp), fun c hc => ?_⟩
    rcases mem_insertCell hc with rfl | hc
    · exact ⟨k.isLt, hv⟩
    · exact ha c hc

theorem storeEach_wf (ks : List (Fin 16)) (f : Fin 16 → Byte) {m : Memory} (h : Memory.wf m) :
    Memory.wf (storeEach ks f m) := by
  unfold storeEach
  induction ks generalizing m with
  | nil => exact h
  | cons k ks ih => exact ih (write_wf h k _)

theorem clearFrame_wf {m : Memory} (h : Memory.wf m) : Memory.wf (clearFrame m) := storeEach_wf _ _ h

theorem copyIn_wf (s : List Byte) (hs : s.length = 16) {m : Memory} (h : Memory.wf m) :
    Memory.wf (copyIn s hs m) := storeEach_wf _ _ h

theorem setLength_wf (n : Byte) {m : Memory} (h : Memory.wf m) : Memory.wf (setLength n m) :=
  storeEach_wf _ _ (write_wf h _ _)

theorem nil_wf : Memory.wf [] := by decide

theorem reset_frame_wf : Memory.wf State.reset.frame := nil_wf

theorem lookup_eq_of_mem {m : Memory} (h : m.Pairwise fun a b => a.1 < b.1) {c : Host.Cell} (hc : c ∈ m) :
    lookup c.1 m = c.2 := by
  induction m with
  | nil => simp at hc
  | cons d rest ih =>
    rw [List.pairwise_cons] at h
    rcases List.mem_cons.mp hc with rfl | hc
    · simp [lookup]
    · have := h.1 c hc
      simp [lookup, Nat.ne_of_lt this, ih h.2 hc]

theorem mem_of_lookup {m : Memory} {k : Nat} (h : lookup k m ≠ unlistedByte) : (k, lookup k m) ∈ m := by
  induction m with
  | nil => simp [lookup] at h
  | cons d rest ih =>
    simp only [lookup] at h ⊢
    split
    · rename_i hk; subst hk; simp
    · rename_i hk; simp only [if_neg hk] at h; simp [ih h]

/-- Two canonical lists that read the same everywhere are the same list. -/
theorem memory_ext {m n : Memory} (hm : Memory.wf m) (hn : Memory.wf n)
    (h : ∀ k : Fin 16, m.read k = n.read k) : m = n := by
  have sub : ∀ {m n : Memory}, Memory.wf m → (∀ k : Fin 16, m.read k = n.read k) → ∀ c ∈ m, c ∈ n := by
    intro m n hm h c hc
    have hlt := hm.2 c hc
    have e : lookup c.1 n = c.2 := (h ⟨c.1, hlt.1⟩).symm.trans (lookup_eq_of_mem hm.1 hc)
    have := mem_of_lookup (m := n) (k := c.1) (by rw [e]; exact hlt.2)
    rwa [e] at this
  have sorted : ∀ {m : Memory}, Memory.wf m → m.Nodup := fun hw =>
    hw.1.imp fun hlt e => by rw [e] at hlt; exact Nat.lt_irrefl _ hlt
  refine List.Perm.eq_of_pairwise (le := fun a b : Host.Cell => a.1 < b.1) ?_ hm.1 hn.1 ?_
  · intro a b _ _ hab hba; omega
  · exact (List.perm_ext_iff_of_nodup (sorted hm) (sorted hn)).mpr
      fun c => ⟨sub hm h c, sub hn (fun k => (h k).symm) c⟩

/-- Clearing a canonical frame lists nothing: the frame of the state after reset. -/
theorem clearFrame_eq_nil {m : Memory} (h : Memory.wf m) : clearFrame m = [] :=
  memory_ext (clearFrame_wf h) nil_wf fun k => by simp

end Sys2Proof.Machine
end

