-- ==== Sys2Proof/Laws/Fields.lean ====
section
/-! SUPPORT. What the field operations read and write: single bits, the flags, the identifier, the operands. -/

namespace Sys2Proof.Machine

/-- A bit write changes that bit and no other of the byte. -/
theorem getLsbD_setBit (v : Byte) (b i : Nat) (x : Bool) (hb : b < 8) :
    (setBit v b x).getLsbD i = if i = b then x else v.getLsbD i := by
  unfold setBit
  by_cases hi : i < 8
  · rcases x with _ | _ <;> by_cases h : i = b <;> simp [hi, h] <;> omega
  · have hv : v.getLsbD i = false := BitVec.getLsbD_of_ge v i (by omega)
    have hib : i ≠ b := by omega
    rcases x with _ | _ <;> simp [hi, hib, hv]

theorem flag_bit_lt (f : Flag) : f.bit < 8 := by cases f <;> decide

@[simp] theorem read_writeFlag (f : Flag) (x : Bool) (m : Memory) (k : Fin 16) :
    (writeFlag f x m).read k = if k = 3 then setBit (m.read 3) f.bit x else m.read k := by
  simp [writeFlag]

/-- Setting one flag is seen by its own getter and by no other. -/
theorem readFlag_writeFlag (f g : Flag) (x : Bool) (m : Memory) :
    readFlag g (writeFlag f x m) = if g = f then x else readFlag g m := by
  simp only [readFlag, read_writeFlag, if_true, getLsbD_setBit _ _ _ _ (flag_bit_lt f)]
  cases f <;> cases g <;> simp [Flag.bit]

theorem writeFlag_wf (f : Flag) (x : Bool) {m : Memory} (h : Memory.wf m) : Memory.wf (writeFlag f x m) :=
  write_wf h _ _

/-- The five effects of SETID's byte writes (41_fields.md R86). -/
theorem read_writeIdentifier (a : Word) (m : Memory) (k : Fin 16) :
    (writeIdentifier a m).read k =
      if k = 3 then (m.read 0).extractLsb' 5 3 ++ a.extractLsb' 24 5
      else if k = 2 then a.extractLsb' 16 8
      else if k = 1 then a.extractLsb' 8 8
      else if k = 0 then a.extractLsb' 0 8
      else m.read k := by
  simp [writeIdentifier]

theorem writeIdentifier_wf (a : Word) {m : Memory} (h : Memory.wf m) : Memory.wf (writeIdentifier a m) :=
  write_wf (write_wf (write_wf (write_wf h _ _) _ _) _ _) _ _

/-- Byte 3 put together from three flag bits and five identifier bits (10_state.md R22). -/
theorem getLsbD_byteThree (flags : BitVec 3) (id : BitVec 5) (j : Nat) :
    (flags ++ id : Byte).getLsbD j = if j < 5 then id.getLsbD j else flags.getLsbD (j - 5) :=
  BitVec.getLsbD_append

/-- The identifier's bits, byte by byte (20_memory.md R42). -/
theorem getLsbD_readIdentifier (m : Memory) (i : Nat) :
    (readIdentifier m).getLsbD i =
      if i < 8 then (m.read 0).getLsbD i
      else if i < 16 then (m.read 1).getLsbD (i - 8)
      else if i < 24 then (m.read 2).getLsbD (i - 16)
      else if i < 29 then (m.read 3).getLsbD (i - 24)
      else false := by
  simp only [readIdentifier, BitVec.getLsbD_append, BitVec.getLsbD_extractLsb', Nat.sub_sub]
  by_cases h0 : i < 8
  · simp [h0]
  · by_cases h1 : i < 16
    · simp [h0, h1, show i - 8 < 8 by omega]
    · by_cases h2 : i < 24
      · simp [h0, h1, h2, show ¬ i - 8 < 8 by omega, show i - 16 < 8 by omega]
      · by_cases h3 : i < 29
        · simp [h0, h1, h2, h3, show ¬ i - 8 < 8 by omega, show ¬ i - 16 < 8 by omega, show i - 24 < 5 by omega]
        · simp [h0, h1, h2, h3, show ¬ i - 8 < 8 by omega, show ¬ i - 16 < 8 by omega, show ¬ i - 24 < 5 by omega]

/-- SETID then GETID (41_fields.md R86, corner cases): A[28:0], whatever F held. -/
theorem readIdentifier_writeIdentifier (a : Word) (m : Memory) :
    readIdentifier (writeIdentifier a m) = a.extractLsb' 0 29 := by
  apply BitVec.eq_of_getLsbD_eq
  intro i hi
  simp only [getLsbD_readIdentifier, read_writeIdentifier, BitVec.getLsbD_extractLsb', hi]
  by_cases h0 : i < 8
  · simp [h0]
  · by_cases h1 : i < 16
    · simp [h0, h1, show i - 8 < 8 by omega, show 8 + (i - 8) = i by omega]
    · by_cases h2 : i < 24
      · simp [h0, h1, h2, show i - 16 < 8 by omega, show 16 + (i - 16) = i by omega]
      · simp [h0, h1, h2, getLsbD_byteThree, show i - 24 < 5 by omega, show 24 + (i - 24) = i by omega]

/-! Operands. -/

theorem payloadOffset_some {a : Word} {k : Fin 16} :
    payloadOffset a = some k ↔ a.toNat < 8 ∧ k.val = 8 + a.toNat := by
  unfold payloadOffset
  split
  · rename_i h
    simp only [Option.some.injEq, h, true_and]
    exact ⟨fun e => by rw [← e], fun e => Fin.ext e.symm⟩
  · rename_i h; simp [h]

theorem payloadOffset_none {a : Word} : payloadOffset a = none ↔ 8 ≤ a.toNat := by
  unfold payloadOffset
  split <;> simp <;> omega

theorem lengthOperand_some {a : Word} {n : Byte} :
    lengthOperand a = some n ↔ a.toNat ≤ 8 ∧ n.toNat = a.toNat := by
  unfold lengthOperand
  split
  · simp; omega
  · rename_i h
    have hm : a.toNat % 2 ^ 8 = a.toNat := Nat.mod_eq_of_lt (by omega)
    have ha : (a.extractLsb' 0 8).toNat = a.toNat := by simpa using hm
    rw [Option.some.injEq]
    exact ⟨fun e => ⟨by omega, by rw [← e, ha]⟩, fun e => BitVec.eq_of_toNat_eq (by rw [ha, e.2])⟩

theorem lengthOperand_none {a : Word} : lengthOperand a = none ↔ 8 < a.toNat := by
  unfold lengthOperand
  split <;> simp <;> omega

@[simp] theorem toNat_zextByte (v : Byte) : (zextByte v).toNat = v.toNat := by
  simp only [zextByte, BitVec.toNat_setWidth]
  exact Nat.mod_eq_of_lt (by have := v.isLt; omega)

@[simp] theorem toNat_zextBit (x : Bool) : (zextBit x).toNat = x.toNat := by cases x <;> rfl

@[simp] theorem length_frameBytes (m : Memory) : (frameBytes m).length = 16 := by simp [frameBytes, offsets]

theorem getElem?_frameBytes (m : Memory) (k : Fin 16) : (frameBytes m)[k.val]? = some (m.read k) := by
  have h : offsets[k.val]? = some k := by revert k; decide
  simp [frameBytes, h]

end Sys2Proof.Machine
end

