-- ==== Sys2Proof/Laws/Ops.lean ====
section
/-! SUPPORT. Everything each shared operation can answer: the three ends of a command, reset, and the way a step goes. -/

namespace Sys2Proof.Machine

theorem respond_eq (d : Word) (s : State) : respond d s = .next (s.answer ⟨.ok, d, []⟩) := rfl

theorem raiseError_eq (e : Status) (s : State) :
    raiseError e s = .next (s.draw.answer ⟨e, Config.freeData s.freeCount, []⟩) := rfl

/-- The plain writing command: an OK answer with DATA 0 at the new frame. -/
theorem respond_setFrame_replies (s : State) (m : Memory) :
    ∃ t, respond 0 (s.setFrame m) = .next t ∧ RepliesOk s t 0 [] ∧ t.frame = m := ⟨_, rfl, ⟨rfl, rfl, rfl⟩, rfl⟩

/-- The plain reading command: an OK answer with the DATA, F unchanged. -/
theorem respond_replies (d : Word) (s : State) :
    ∃ t, respond d s = .next t ∧ RepliesOk s t d [] ∧ t.frame = s.frame := ⟨_, rfl, ⟨rfl, rfl, rfl⟩, rfl⟩

theorem respond_next {d : Word} {s t : State} (h : respond d s = .next t) : t = s.answer ⟨.ok, d, []⟩ := by
  simpa [respond] using h.symm

theorem respondStream_small {b : List Byte} (s : State) (hb : b.length < 2 ^ 32) :
    respondStream b s = .next (s.answer ⟨.ok, BitVec.ofNat 32 b.length, b⟩) := if_pos hb

/-- A stream response is OK with the bytes; DATA is their number where 32 bits hold it. -/
theorem respondStream_replies (b : List Byte) (s : State) :
    ∃ t d, respondStream b s = .next t ∧ RepliesOk s t d b ∧ t.frame = s.frame ∧
      (b.length < 2 ^ 32 → d.toNat = b.length) := by
  unfold respondStream
  split
  · rename_i h
    exact ⟨_, _, rfl, ⟨rfl, rfl, rfl⟩, rfl, fun _ => by rw [BitVec.toNat_ofNat, Nat.mod_eq_of_lt h]⟩
  · rename_i h
    exact ⟨_, _, rfl, ⟨rfl, rfl, rfl⟩, rfl, fun hb => absurd hb h⟩

theorem raiseError_next {e : Status} {s t : State} (h : raiseError e s = .next t) :
    t = s.draw.answer ⟨e, Config.freeData s.freeCount, []⟩ := by
  simpa [raiseError] using h.symm

/-- A failing command answers its error and changes nothing else (60_exceptions.md R113). -/
theorem raiseError_replies (e : Status) (s : State) : ∃ t, raiseError e s = .next t ∧ RepliesError s t e :=
  ⟨_, rfl, ⟨_, rfl⟩, rfl, rfl, rfl⟩

theorem takeReset_eq (s : State) : takeReset s = .next (s.setFrame (clearFrame s.frame)) := rfl

theorem takeReset_next {s t : State} (h : takeReset s = .next t) : t = s.setFrame (clearFrame s.frame) := by
  simpa [takeReset] using h.symm

theorem acceptsItems_iff {s : State} {n : Nat} : acceptsItems s.config n = true ↔ AllowsItems s n := by
  unfold acceptsItems AllowsItems
  cases s.config.maxItems <;> simp

/-- What any command that has a next state does to the interface, and the only frames it can leave. -/
structure Answered (s t : State) : Prop where
  output : ∃ r, t.output = s.output ++ [r] ∧ r.wf ∧ (r.status ≠ .ok → t.frame = s.frame)
  input : t.input = s.input
  config : t.config = s.config

theorem respond_answered {d : Word} {s t : State} {m : Memory} (h : respond d (s.setFrame m) = .next t) :
    Answered s t := by
  rw [respond_next h]
  exact ⟨⟨_, rfl, ⟨fun e => absurd rfl e, fun _ e => absurd rfl e⟩, fun e => absurd rfl e⟩, rfl, rfl⟩

theorem raiseError_answered {e : Status} (he : e ≠ .ok) {s t : State} (h : raiseError e s = .next t) :
    Answered s t := by
  rw [raiseError_next h]
  exact ⟨⟨_, rfl, ⟨fun _ => rfl, fun e' => absurd e' he⟩, fun _ => rfl⟩, rfl, rfl⟩

theorem respondStream_answered {b : List Byte} {s t : State} (h : respondStream b s = .next t) : Answered s t := by
  obtain ⟨u, d, hu, ⟨ho, hi, hc⟩, _, hd⟩ := respondStream_replies b s
  obtain rfl : u = t := by simpa using hu.symm.trans h
  exact ⟨⟨_, ho, ⟨fun e => absurd rfl e, fun _ _ hb => hd hb⟩, fun e => absurd rfl e⟩, hi, hc⟩

/-! What a step does, by what stands first on the interface. -/
theorem step_nil {s : State} (h : s.input = []) : step s = .refused .noCommand := by
  unfold step; rw [h]

theorem step_reset {s : State} {later : List HostInput} (h : s.input = .reset :: later) :
    step s = takeReset (s.setInput later) := by
  unfold step; rw [h]

theorem step_command {s : State} {x : Transfer} {later : List HostInput} (h : s.input = .command x :: later) :
    step s = match decode x with
      | .command i => exec i (s.setInput later)
      | .illegal _ => takeIllegalCommand (s.setInput later)
      | .unpresentable => .refused .notPresentable := by
  cases hd : decode x <;> simp only [step, h, hd]

end Sys2Proof.Machine
end

