-- ==== Sys2Proof/Laws/Exec.lean ====
section
/-! SUPPORT. exec, command by command, over the shared operations: the equation of each arm, and the meanings that look
at an operand case by case. Proofs rewrite with these and do not unfold exec. -/

namespace Sys2Proof.Machine

theorem exec_new (s : State) : exec .new s = respond 0 (s.setFrame (clearFrame s.frame)) := by
  simp only [exec, execNew]

theorem exec_load (b : List Byte) (s : State) : exec (.load b) s = execLoad b s := by simp only [exec]

theorem exec_getid (s : State) : exec .getid s = respond ((readIdentifier s.frame).setWidth 32) s := by
  simp only [exec, execGetid]

theorem exec_setid (a : Word) (s : State) :
    exec (.setid a) s = respond 0 (s.setFrame (writeIdentifier a s.frame)) := by simp only [exec, execSetid]

theorem exec_getdlc (s : State) : exec .getdlc s = respond (zextByte (s.byte 4)) s := by
  simp only [exec, execGetdlc]

theorem exec_setdlc (a : Word) (s : State) : exec (.setdlc a) s = execSetdlc a s := by simp only [exec]

theorem exec_geteff (s : State) : exec .geteff s = respondFlag .eff s := by simp only [exec, execGeteff]

theorem exec_getrtr (s : State) : exec .getrtr s = respondFlag .rtr s := by simp only [exec, execGetrtr]

theorem exec_geterr (s : State) : exec .geterr s = respondFlag .err s := by simp only [exec, execGeterr]

theorem exec_seteff (a : Word) (s : State) :
    exec (.seteff a) s = respond 0 (s.setFrame (writeFlag .eff (flagOperand a) s.frame)) := by
  simp only [exec, execSeteff]

theorem exec_setrtr (a : Word) (s : State) : exec (.setrtr a) s = execSetrtr a s := by simp only [exec]

theorem exec_seterr (a : Word) (s : State) :
    exec (.seterr a) s = respond 0 (s.setFrame (writeFlag .err (flagOperand a) s.frame)) := by
  simp only [exec, execSeterr]

theorem exec_prd (a : Word) (s : State) : exec (.prd a) s = execPrd a s := by simp only [exec]

theorem exec_pwr (a b : Word) (s : State) : exec (.pwr a b) s = execPwr a b s := by simp only [exec]

theorem exec_build (items : List Item) (s : State) : exec (.build items) s = execBuild items s := by
  simp only [exec]

theorem execLoad_ok {b : List Byte} (h : b.length = 16) (s : State) :
    execLoad b s = respond 0 (s.setFrame (copyIn b h s.frame)) := dif_pos h

theorem execLoad_error {b : List Byte} (h : b.length ≠ 16) (s : State) :
    execLoad b s = raiseError .invalidLength s := dif_neg h

theorem execSetdlc_ok {a : Word} (h : a.toNat ≤ 8) (s : State) :
    ∃ n : Byte, n.toNat = a.toNat ∧ execSetdlc a s = respond 0 (s.setFrame (setLength n s.frame)) := by
  cases hl : lengthOperand a with
  | none => rw [lengthOperand_none] at hl; omega
  | some n => exact ⟨n, (lengthOperand_some.mp hl).2, by simp [execSetdlc, hl]⟩

theorem execSetdlc_error {a : Word} (h : 8 < a.toNat) (s : State) :
    execSetdlc a s = raiseError .outOfRange s := by
  simp [execSetdlc, lengthOperand_none.mpr h]

theorem execSetrtr_one {a : Word} (h : flagOperand a = true) (s : State) :
    execSetrtr a s = respond 0 (s.setFrame (setLength 0 (writeFlag .rtr true s.frame))) := by
  simp [execSetrtr, h]

theorem execSetrtr_zero {a : Word} (h : flagOperand a = false) (s : State) :
    execSetrtr a s = respond 0 (s.setFrame (writeFlag .rtr false s.frame)) := by
  simp [execSetrtr, h]

theorem execPrd_ok {a : Word} {k : Fin 16} (h : a.toNat < 8) (hk : k.val = 8 + a.toNat) (s : State) :
    execPrd a s = respond (zextByte (s.byte k)) s := by
  simp [execPrd, payloadOffset_some.mpr ⟨h, hk⟩]

theorem execPrd_error {a : Word} (h : 8 ≤ a.toNat) (s : State) :
    execPrd a s = raiseError .indexOutOfRange s := by
  simp [execPrd, payloadOffset_none.mpr h]

theorem execPwr_ok {a : Word} {k : Fin 16} (h : a.toNat < 8) (hk : k.val = 8 + a.toNat) (b : Word) (s : State) :
    execPwr a b s = respond 0 (s.setFrame (s.frame.write k (byteOperand b))) := by
  simp [execPwr, payloadOffset_some.mpr ⟨h, hk⟩]

theorem execPwr_error {a : Word} (h : 8 ≤ a.toNat) (b : Word) (s : State) :
    execPwr a b s = raiseError .indexOutOfRange s := by
  simp [execPwr, payloadOffset_none.mpr h]

theorem exec_clone (s : State) :
    exec .clone s = .next (s.answer ⟨.ok, 16, frameBytes s.frame⟩) := by
  rw [exec, execClone, respondStream_small _ (by simp), length_frameBytes]; rfl

theorem any_unsupported {items : List Item} :
    items.any unsupported = true ↔ ∃ tag v, Item.other tag v ∈ items := by
  rw [List.any_eq_true]
  constructor
  · rintro ⟨i, hi, hu⟩
    cases i <;> simp [unsupported] at hu
    exact ⟨_, _, hi⟩
  · rintro ⟨tag, v, h⟩
    exact ⟨_, h, rfl⟩

theorem execBuild_refused {items : List Item} {s : State} (h : ¬ AllowsItems s items.length) :
    execBuild items s = .refused .tooManyItems := by
  rw [← acceptsItems_iff] at h
  simp [execBuild, h]

theorem execBuild_error {items : List Item} {s : State} (h : AllowsItems s items.length)
    (hu : ∃ tag v, Item.other tag v ∈ items) : execBuild items s = raiseError .unsupportedType s := by
  simp only [execBuild, acceptsItems_iff.mpr h, if_true, any_unsupported.mpr hu]

theorem execBuild_ok {items : List Item} {s : State} (h : AllowsItems s items.length)
    (hu : ¬ ∃ tag v, Item.other tag v ∈ items) : execBuild items s = respondStream (emitAll items) s := by
  rw [← any_unsupported] at hu
  simp only [execBuild, acceptsItems_iff.mpr h, if_true, if_neg hu]

end Sys2Proof.Machine
end

