-- ==== Sys2Proof/Laws/Decode.lean ====
section
/-! SUPPORT. The fields of a command word and of an item word, and the opcode map both ways. -/

namespace Sys2Proof

/-- The bits of a command word, field by field (30_encoding.md R55). -/
theorem getLsbD_commandWord (op : Byte) (a b : Word) (i : Nat) :
    (commandWord op a b).getLsbD i =
      if i < 8 then op.getLsbD i else if i - 8 < 32 then a.getLsbD (i - 8) else b.getLsbD (i - 8 - 32) := by
  have h1 : (commandWord op a b).getLsbD i = if i < 8 then op.getLsbD i else (b ++ a).getLsbD (i - 8) :=
    BitVec.getLsbD_append
  have h2 : (b ++ a).getLsbD (i - 8) = if i - 8 < 32 then a.getLsbD (i - 8) else b.getLsbD (i - 8 - 32) :=
    BitVec.getLsbD_append
  rw [h1, h2]

@[simp] theorem opField_commandWord (op : Byte) (a b : Word) : opField (commandWord op a b) = op := by
  apply BitVec.eq_of_getLsbD_eq
  intro i hi
  simp [opField, getLsbD_commandWord, hi]

@[simp] theorem aField_commandWord (op : Byte) (a b : Word) : aField (commandWord op a b) = a := by
  apply BitVec.eq_of_getLsbD_eq
  intro i hi
  simp [aField, getLsbD_commandWord, hi]

@[simp] theorem bField_commandWord (op : Byte) (a b : Word) : bField (commandWord op a b) = b := by
  apply BitVec.eq_of_getLsbD_eq
  intro i hi
  simp [bField, getLsbD_commandWord, hi, show ¬ 40 + i < 8 by omega, show ¬ 40 + i - 8 < 32 by omega,
    show 40 + i - 8 - 32 = i by omega]

theorem opField_encode (i : Instr) : opField (encode i).cw = i.opcode.code := opField_commandWord _ _ _

/-- Every assigned number stands for its own opcode, so no two opcodes share one. -/
@[simp] theorem ofCode?_code (o : Opcode) : Opcode.ofCode? o.code = some o := by cases o <;> decide

theorem code_of_ofCode? {op : Byte} {o : Opcode} (h : Opcode.ofCode? op = some o) : o.code = op := by
  simpa using List.find?_some h

theorem ofCode?_eq_none {op : Byte} : Opcode.ofCode? op = none ↔ ∀ o : Opcode, o.code ≠ op := by
  constructor
  · intro h o e
    rw [← e, ofCode?_code] at h
    cases h
  · intro h
    cases hc : Opcode.ofCode? op with
    | none => rfl
    | some o => exact absurd (code_of_ofCode? hc) (h o)

/-! What the two commands with a stream decode to. -/

theorem decodeLoad_command {a : Word} {st : OperandStream} {i : Instr} :
    decodeLoad a st = .command i ↔ ∃ s, st.asBytes? = some s ∧ s.length = a.toNat ∧ i = .load s := by
  unfold decodeLoad
  cases st.asBytes? with
  | none => simp
  | some s => by_cases h : s.length = a.toNat <;> simp [h, eq_comm]

theorem decodeLoad_unpresentable {a : Word} {st : OperandStream} :
    decodeLoad a st = .unpresentable ↔ ∀ s, st.asBytes? = some s → s.length ≠ a.toNat := by
  unfold decodeLoad
  cases st.asBytes? with
  | none => simp
  | some s => by_cases h : s.length = a.toNat <;> simp [h]

theorem decodeLoad_not_illegal {a : Word} {st : OperandStream} {op : Byte} : decodeLoad a st ≠ .illegal op := by
  unfold decodeLoad
  cases st.asBytes? with
  | none => simp
  | some s => by_cases h : s.length = a.toNat <;> simp [h]

theorem decodeBuild_command {a : Word} {st : OperandStream} {i : Instr} :
    decodeBuild a st = .command i ↔
      ∃ s, st.asItems? = some s ∧ s.length = a.toNat ∧ i = .build (s.map decodeItem) := by
  unfold decodeBuild
  cases st.asItems? with
  | none => simp
  | some s =>
    by_cases h : s.length = a.toNat
    · simp [h, eq_comm]
    · simp [h]

theorem decodeBuild_unpresentable {a : Word} {st : OperandStream} :
    decodeBuild a st = .unpresentable ↔ ∀ s, st.asItems? = some s → s.length ≠ a.toNat := by
  unfold decodeBuild
  cases st.asItems? with
  | none => simp
  | some s => by_cases h : s.length = a.toNat <;> simp [h]

theorem decodeBuild_not_illegal {a : Word} {st : OperandStream} {op : Byte} :
    decodeBuild a st ≠ .illegal op := by
  unfold decodeBuild
  cases st.asItems? with
  | none => simp
  | some s => by_cases h : s.length = a.toNat <;> simp [h]

/-- The bits of a stream that LOAD or BUILD takes (30_encoding.md R66). -/
theorem bits_of_asBytes {st : OperandStream} {s : List Byte} (h : st.asBytes? = some s) : st.bits = 8 * s.length := by
  unfold OperandStream.asBytes? at h
  split at h <;> cases h <;> rfl

theorem bits_of_asItems {st : OperandStream} {s : List ItemWord} (h : st.asItems? = some s) :
    st.bits = 40 * s.length := by
  unfold OperandStream.asItems? at h
  split at h <;> cases h <;> rfl

/-- The bits of an item word (30_encoding.md R60). -/
theorem getLsbD_itemWord (tag : Byte) (v : Word) (i : Nat) :
    (tag ++ v : ItemWord).getLsbD i = if i < 32 then v.getLsbD i else tag.getLsbD (i - 32) :=
  BitVec.getLsbD_append

@[simp] theorem itemTag_append (tag : Byte) (v : Word) : itemTag (tag ++ v : ItemWord) = tag := by
  apply BitVec.eq_of_getLsbD_eq
  intro i hi
  simp [itemTag, getLsbD_itemWord, hi]

@[simp] theorem itemValue_append (tag : Byte) (v : Word) : itemValue (tag ++ v : ItemWord) = v := by
  apply BitVec.eq_of_getLsbD_eq
  intro i hi
  simp [itemValue, getLsbD_itemWord, hi]

/-- A TAG of 6 or more is an unsupported item (30_encoding.md R60). -/
theorem decodeItem_other {w : ItemWord} (h : 6 ≤ (itemTag w).toNat) :
    decodeItem w = .other (itemTag w) (itemValue w) := by
  unfold decodeItem
  split <;> first | omega | rfl

/-- What decoding an item word gives is well formed. -/
theorem decodeItem_wf (w : ItemWord) : (decodeItem w).wf = true := by
  by_cases h : 6 ≤ (itemTag w).toNat
  · rw [decodeItem_other h]; simpa [Item.wf] using h
  · have hs : (itemTag w).toNat = 0 ∨ (itemTag w).toNat = 1 ∨ (itemTag w).toNat = 2 ∨ (itemTag w).toNat = 3 ∨
        (itemTag w).toNat = 4 ∨ (itemTag w).toNat = 5 := by omega
    rcases hs with e | e | e | e | e | e <;> simp [decodeItem, e, Item.wf]

theorem decodeItem_encodeItem {i : Item} (h : i.wf = true) : decodeItem (encodeItem i) = i := by
  cases i with
  | other tag v =>
    have ht : 6 ≤ tag.toNat := by simpa [Item.wf] using h
    have := decodeItem_other (w := (tag ++ v : ItemWord)) (by rw [itemTag_append]; exact ht)
    rwa [itemTag_append, itemValue_append] at this
  | _ => simp only [encodeItem, decodeItem, itemTag_append, itemValue_append]; rfl

end Sys2Proof
end

