-- ==== Sys2Proof/Laws/PerInstr.lean ====
section
/-! SUPPORT. Statements about every command as syntax, one lemma for each constructor. -/

namespace Sys2Proof.Laws

/-- The encoder writes the command's opcode and operands into the three fields of the command word, and the map gives
the opcode back from its number (30_encoding.md R55, R63). -/
def EncodesFields.Statement (i : Instr) : Prop :=
  Opcode.ofCode? (opField (encode i).cw) = some i.opcode ∧
  aField (encode i).cw = i.aOperand ∧ bField (encode i).cw = i.bOperand ∧ (encode i).stream = i.stream

theorem EncodesFields.all (i : Instr) : EncodesFields.Statement i :=
  ⟨by rw [opField_encode, ofCode?_code], aField_commandWord _ _ _, bField_commandWord _ _ _, rfl⟩

theorem EncodesFields.new : EncodesFields.Statement .new := EncodesFields.all _
theorem EncodesFields.load (s : List Byte) : EncodesFields.Statement (.load s) := EncodesFields.all _
theorem EncodesFields.clone : EncodesFields.Statement .clone := EncodesFields.all _
theorem EncodesFields.getid : EncodesFields.Statement .getid := EncodesFields.all _
theorem EncodesFields.setid (a : Word) : EncodesFields.Statement (.setid a) := EncodesFields.all _
theorem EncodesFields.getdlc : EncodesFields.Statement .getdlc := EncodesFields.all _
theorem EncodesFields.setdlc (a : Word) : EncodesFields.Statement (.setdlc a) := EncodesFields.all _
theorem EncodesFields.geteff : EncodesFields.Statement .geteff := EncodesFields.all _
theorem EncodesFields.seteff (a : Word) : EncodesFields.Statement (.seteff a) := EncodesFields.all _
theorem EncodesFields.getrtr : EncodesFields.Statement .getrtr := EncodesFields.all _
theorem EncodesFields.setrtr (a : Word) : EncodesFields.Statement (.setrtr a) := EncodesFields.all _
theorem EncodesFields.geterr : EncodesFields.Statement .geterr := EncodesFields.all _
theorem EncodesFields.seterr (a : Word) : EncodesFields.Statement (.seterr a) := EncodesFields.all _
theorem EncodesFields.prd (a : Word) : EncodesFields.Statement (.prd a) := EncodesFields.all _
theorem EncodesFields.pwr (a b : Word) : EncodesFields.Statement (.pwr a b) := EncodesFields.all _
theorem EncodesFields.build (items : List Item) : EncodesFields.Statement (.build items) := EncodesFields.all _

end Sys2Proof.Laws
end

