-- ==== Sys2Proof/Tests/Slice0.lean ====
section
/-! SUPPORT. Tests of the model. Expected results are those of spec/95_test_vectors.md (the vector's id is in the name or
the comment) or words written out from 30_encoding.md R55, R60, R63. After them, one witness for the hypotheses of each
obligation that has any. -/

open Sys2Proof Sys2Proof.Machine

namespace Sys2Proof.Tests

/-- The frame with these bytes, F[0] first. -/
def frameOf (bytes : List Byte) : Memory := storeEach offsets (fun k => bytes.getD k.val 0) []

/-- That frame with one command presented. -/
def presented (bytes : List Byte) (cw : CommandWord) (stream : OperandStream) : State :=
  (State.launch { maxItems := none } (frameOf bytes)).setInput [.command { cw := cw, stream := stream }]

/-- The bytes of F and the responses after a step. -/
def after (r : Result) : Option (List Byte × List Response) :=
  match r with
  | .next t => some (frameBytes t.frame, t.output)
  | .fault _ => none
  | .refused _ => none

/-- The same, but of each response only STATUS and stream: DATA of an error is unspecified. -/
def afterError (r : Result) : Option (List Byte × List (Status × List Byte)) :=
  match r with
  | .next t => some (frameBytes t.frame, t.output.map fun q => (q.status, q.stream))
  | .fault _ => none
  | .refused _ => none

def z : List Byte := List.replicate 16 0

def scn : List Byte := [0x01, 0, 0, 0x80, 4, 0, 0, 0, 0x11, 0x22, 0x33, 0x44, 0, 0, 0, 0]

def aa : List Byte := [0, 0, 0, 0, 8, 0, 0, 0, 0xAA, 0xAA, 0xAA, 0xAA, 0xAA, 0xAA, 0xAA, 0xAA]

/-! Ill-formed terms are refused, and their neighbours are not. -/

theorem test_load_too_long : (Instr.load (List.replicate (2 ^ 32) 0)).wf = false := by
  simp only [Instr.wf, List.length_replicate]; decide

theorem test_build_too_long : (Instr.build (List.replicate (2 ^ 32) .null)).wf = false := by
  simp only [Instr.wf, List.length_replicate]; decide

theorem test_other_tag_supported : (Instr.build [.null, .other 0x05 0]).wf = false := by decide

theorem test_other_tag_lowest : (Instr.build [.null, .other 0x06 0]).wf = true := by decide

/-! Every command's word, written out as `B A OP` (30_encoding.md R55, R63). -/

theorem test_decode_new : decode ⟨0x000000000000000001, .none⟩ = .command .new := by decide

theorem test_decode_new_ignores_fields : decode ⟨0x12345678FFFFFFFF01, .none⟩ = .command .new := by decide

theorem test_decode_load : decode ⟨0x000000000000000202, .bytes [0xAB, 0xCD]⟩ = .command (.load [0xAB, 0xCD]) := by
  decide

theorem test_decode_load_empty : decode ⟨0x000000000000000002, .none⟩ = .command (.load []) := by decide

/-- An empty stream has no kind (log entry 7). -/
theorem test_decode_empty_stream_has_no_kind :
    decode ⟨0x000000000000000002, .items []⟩ = .command (.load []) ∧
    decode ⟨0x000000000000000030, .bytes []⟩ = .command (.build []) := by decide

theorem test_decode_load_short : decode ⟨0x000000000000000302, .bytes [0xAB, 0xCD]⟩ = .unpresentable := by decide

theorem test_decode_clone : decode ⟨0x000000000000000003, .none⟩ = .command .clone := by decide

theorem test_decode_getid : decode ⟨0x000000000000000010, .none⟩ = .command .getid := by decide

theorem test_decode_setid : decode ⟨0x00000000FFFFFFFF11, .none⟩ = .command (.setid 0xFFFFFFFF) := by decide

theorem test_decode_getdlc : decode ⟨0x000000000000000012, .none⟩ = .command .getdlc := by decide

theorem test_decode_setdlc : decode ⟨0x000000000000000913, .none⟩ = .command (.setdlc 9) := by decide

theorem test_decode_geteff : decode ⟨0x000000000000000014, .none⟩ = .command .geteff := by decide

theorem test_decode_seteff : decode ⟨0x000000000000000215, .none⟩ = .command (.seteff 2) := by decide

theorem test_decode_getrtr : decode ⟨0x000000000000000016, .none⟩ = .command .getrtr := by decide

theorem test_decode_setrtr : decode ⟨0x000000000000000117, .none⟩ = .command (.setrtr 1) := by decide

theorem test_decode_geterr : decode ⟨0x000000000000000018, .none⟩ = .command .geterr := by decide

theorem test_decode_seterr : decode ⟨0x000000000000000119, .none⟩ = .command (.seterr 1) := by decide

theorem test_decode_prd : decode ⟨0x00000000FFFFFFFF20, .none⟩ = .command (.prd 0xFFFFFFFF) := by decide

theorem test_decode_pwr : decode ⟨0x000001AB0000000021, .none⟩ = .command (.pwr 0 0x1AB) := by decide

/-- The items of vector BP-4, and one of BP-6. -/
theorem test_decode_build :
    decode ⟨0x000000000000000630,
      .items [0x04DEADBEEF, 0x0000000000, 0x05000001FF, 0x0100000000, 0x03ABCD1234, 0x0600000000]⟩ =
    .command (.build [.u32 0xDEADBEEF, .null, .enum 0x1FF, .bool 0, .u16 0xABCD1234, .other 0x06 0]) := by decide

theorem test_decode_byte_item : decodeItem 0x0200000005 = .byte 5 := by decide

/-- Vectors IL-1 to IL-4 and the last value before BUILD. -/
theorem test_decode_illegal :
    decode ⟨0x000000000000000000, .none⟩ = .illegal 0x00 ∧ decode ⟨0x000000000000001004, .none⟩ = .illegal 0x04 ∧
    decode ⟨0x00000000000000011A, .none⟩ = .illegal 0x1A ∧ decode ⟨0x00000000000000002F, .none⟩ = .illegal 0x2F ∧
    decode ⟨0xFFFFFFFFFFFFFFFFFF, .none⟩ = .illegal 0xFF := by decide

theorem test_table_word : decodeTableWord 72 0x13 = some (.setdlc 0) ∧ decodeTableWord 72 0x0202 = some (.load [0, 0]) ∧
    decodeTableWord 72 0x0130 = some (.build [.null]) ∧ decodeTableWord 72 0x40 = none := by decide

/-! The assembler (30_encoding.md R67). -/

theorem test_assemble_load :
    assemble ['L', 'O', 'A', 'D', ' ', '[', '1', ',', ' ', '0', 'x', 'F', 'f', ']'] =
      some ⟨0x000000000000000202, .bytes [0x01, 0xFF]⟩ := by decide

/-- Vector BP-6: `BUILD [BYTE 1, OTHER 0x06, 0]`, then an item without its `v`. -/
theorem test_assemble_build :
    assemble ['B', 'U', 'I', 'L', 'D', ' ', '[', 'B', 'Y', 'T', 'E', ' ', '1', ',', ' ', 'O', 'T', 'H', 'E', 'R',
      ' ', '0', 'x', '0', '6', ',', ' ', '0', ',', 'N', 'U', 'L', 'L', ']'] =
      some ⟨0x000000000000000330, .items [0x0200000001, 0x0600000000, 0x0000000000]⟩ := by decide

theorem test_assemble_refuses : assemble ['P', 'R', 'D'] = none ∧ assemble ['N', 'O', 'P'] = none := by decide

/-! One step of each command. -/

/-- LC-1. -/
theorem test_new : after (step (presented scn 0x01 .none)) = some (z, [⟨.ok, 0, []⟩]) := by decide

/-- LC-8: an invalid length, reserved bytes and a tail are stored as they are. -/
theorem test_load :
    after (step (presented z 0x1002 (.bytes [0, 0, 0, 0, 0xFF, 0x5A, 0xA5, 0x3C, 0x99, 0x99, 0x99, 0x99, 0x99, 0x99,
      0x99, 0x99]))) =
    some ([0, 0, 0, 0, 0xFF, 0x5A, 0xA5, 0x3C, 0x99, 0x99, 0x99, 0x99, 0x99, 0x99, 0x99, 0x99], [⟨.ok, 0, []⟩]) := by
  decide

/-- LC-5: 17 bytes. -/
theorem test_load_seventeen :
    afterError (step (presented aa 0x1102 (.bytes (scn ++ [0])))) = some (aa, [(.invalidLength, [])]) := by decide

/-- LC-7. -/
theorem test_clone : after (step (presented scn 0x03 .none)) = some (scn, [⟨.ok, 16, scn⟩]) := by decide

/-- ID-2. -/
theorem test_getid : after (step (presented ([0xFF, 0xFF, 0xFF, 0xFF] ++ List.replicate 12 0) 0x10 .none)) =
    some ([0xFF, 0xFF, 0xFF, 0xFF] ++ List.replicate 12 0, [⟨.ok, 0x1FFFFFFF, []⟩]) := by decide

/-- ID-9: the flags come from the old F[0]. -/
theorem test_setid_aliases : after (step (presented ([0x78, 0x56, 0x34, 0x12] ++ List.replicate 12 0) 0x1234567811 .none)) =
    some ([0x78, 0x56, 0x34, 0x72] ++ List.replicate 12 0, [⟨.ok, 0, []⟩]) := by decide

/-- ID-6: A[31:29] is ignored. -/
theorem test_setid_wide : after (step (presented z 0xFFFFFFFF11 .none)) =
    some ([0xFF, 0xFF, 0xFF, 0x1F] ++ List.replicate 12 0, [⟨.ok, 0, []⟩]) := by decide

/-- DLC-2. -/
theorem test_getdlc : after (step (presented [0, 0, 0, 0, 0xFF, 0x5A] 0x12 .none)) =
    some ([0, 0, 0, 0, 0xFF, 0x5A] ++ List.replicate 10 0, [⟨.ok, 0xFF, []⟩]) := by decide

/-- DLC-9: only the bytes from 8+6 on are cleared. -/
theorem test_setdlc :
    after (step (presented [0, 0, 0, 0, 3, 0, 0, 0, 0x11, 0x22, 0x33, 0x44, 0, 0, 0, 0x77] 0x0613 .none)) =
    some ([0, 0, 0, 0, 6, 0, 0, 0, 0x11, 0x22, 0x33, 0x44, 0, 0, 0, 0], [⟨.ok, 0, []⟩]) := by decide

/-- DLC-7: −1 as a signed number. -/
theorem test_setdlc_negative :
    afterError (step (presented aa 0xFFFFFFFF13 .none)) = some (aa, [(.outOfRange, [])]) := by decide

/-- L1-1, FLG-4: EFF is bit 7 alone. -/
theorem test_geteff : after (step (presented scn 0x14 .none)) = some (scn, [⟨.ok, 1, []⟩]) := by decide

/-- FLG-13: EFF is cleared and nothing is masked. -/
theorem test_seteff : after (step (presented ([0xFF, 0xFF, 0xFF, 0xFF] ++ List.replicate 12 0) 0x15 .none)) =
    some ([0xFF, 0xFF, 0xFF, 0x7F] ++ List.replicate 12 0, [⟨.ok, 0, []⟩]) := by decide

/-- L1-1: GETRTR = 0 on SCN, whose F[3] is 0x80. -/
theorem test_getrtr : after (step (presented scn 0x16 .none)) = some (scn, [⟨.ok, 0, []⟩]) := by decide

/-- FLG-6. -/
theorem test_setrtr_one :
    after (step (presented [0, 0, 0, 0x40, 8, 0, 0, 0, 0xAA, 0xAA, 0xAA, 0xAA, 0xAA, 0xAA, 0xAA, 0xAA] 0x0117 .none)) =
    some ([0, 0, 0, 0x40] ++ List.replicate 12 0, [⟨.ok, 0, []⟩]) := by decide

/-- FLG-8: A[0] of 2 is 0. -/
theorem test_setrtr_two : after (step (presented aa 0x0217 .none)) = some (aa, [⟨.ok, 0, []⟩]) := by decide

/-- FLG-3. -/
theorem test_geterr : after (step (presented ([0, 0, 0, 0xE0] ++ List.replicate 12 0) 0x18 .none)) =
    some ([0, 0, 0, 0xE0] ++ List.replicate 12 0, [⟨.ok, 1, []⟩]) := by decide

/-- FLG-11. -/
theorem test_seterr : after (step (presented ([0, 0, 0, 0x1F] ++ List.replicate 12 0) 0x0119 .none)) =
    some ([0, 0, 0, 0x3F] ++ List.replicate 12 0, [⟨.ok, 0, []⟩]) := by decide

/-- PL-2. -/
theorem test_prd : after (step (presented scn 0x0320 .none)) = some (scn, [⟨.ok, 0x44, []⟩]) := by decide

/-- PL-4. -/
theorem test_prd_eight : afterError (step (presented scn 0x0820 .none)) = some (scn, [(.indexOutOfRange, [])]) := by
  decide

/-- PL-9: an index at or above DLC is written. -/
theorem test_pwr : after (step (presented scn 0x000000990000000721 .none)) =
    some ([0x01, 0, 0, 0x80, 4, 0, 0, 0, 0x11, 0x22, 0x33, 0x44, 0, 0, 0, 0x99], [⟨.ok, 0, []⟩]) := by decide

/-- PL-8. -/
theorem test_pwr_eight :
    afterError (step (presented z 0x000000CD0000000821 .none)) = some (z, [(.indexOutOfRange, [])]) := by decide

/-- BP-4. -/
theorem test_build :
    after (step (presented z 0x0530
      (.items [0x04DEADBEEF, 0x0000000000, 0x05000001FF, 0x0100000000, 0x03ABCD1234]))) =
    some (z, [⟨.ok, 8, [0xDE, 0xAD, 0xBE, 0xEF, 0xFF, 0x00, 0x12, 0x34]⟩]) := by decide

/-- BP-6: one unsupported item after a valid one. -/
theorem test_build_unsupported :
    afterError (step (presented z 0x0230 (.items [0x0200000001, 0x0600000000]))) =
    some (z, [(.unsupportedType, [])]) := by decide

/-- IL-4. -/
theorem test_illegal :
    afterError (step (presented scn 0xFFFFFFFFFFFFFFFFFF .none)) = some (scn, [(.illegalCommand, [])]) := by decide

/-- 30_encoding.md R61's numbers. -/
theorem test_status_codes : [Status.ok, .invalidLength, .outOfRange, .indexOutOfRange, .unsupportedType,
    .illegalCommand].map Status.code = [0, 1, 2, 3, 4, 5] := by decide

/-- 70_reset_and_hazards.md R130: reset zeroes F and answers nothing. -/
theorem test_reset : after (step ((State.launch { maxItems := none } (frameOf aa)).setInput [.reset, .reset])) =
    some (z, []) := by decide

/-! Witnesses: each meets all hypotheses of a clause of the obligation it is named after, at a boundary of its range. -/

/-- Every opcode of R63 is some word's OP (the clauses `ReadsAs` and `ReadsAsOfA` of every command). -/
theorem witness_every_opcode_has_a_word : ∀ op ∈ [0x01#8, 0x02, 0x03, 0x10, 0x11, 0x12, 0x13, 0x14, 0x15, 0x16, 0x17,
    0x18, 0x19, 0x20, 0x21, 0x30], (commandWord op 0 0).extractLsb' 0 8 = op := by decide

theorem witness_LoadCopiesSixteenBytesOrFails :
    ((0x1002 : CommandWord).extractLsb' 0 8 = 0x02 ∧ z.length = ((0x1002 : CommandWord).extractLsb' 8 32).toNat) ∧
    scn.length = 16 ∧ (List.replicate 15 (0 : Byte)).length ≠ 16 ∧ (List.replicate 17 (0 : Byte)).length ≠ 16 := by
  decide

/-- The bit ranges of SETID's clauses at their ends, and the first and last byte it leaves alone. -/
theorem witness_SetIdWritesIdentifierAndAliasesFlags :
    (0 < 8 ∧ 7 < 8) ∧ (0 < 5 ∧ 4 < 5) ∧ (5 ≤ 5 ∧ 5 < 8) ∧ (5 ≤ 7 ∧ 7 < 8) ∧ 4 ≤ (4 : Fin 16).val ∧
    4 ≤ (15 : Fin 16).val := by decide

theorem witness_SetDlcWritesLengthAndZeroesTheTail :
    ((0 : Word).toNat ≤ 8 ∧ 8 + (0 : Word).toNat ≤ (8 : Fin 16).val) ∧
    ((8 : Word).toNat ≤ 8 ∧ (15 : Fin 16) ≠ 4 ∧ (15 : Fin 16).val < 8 + (8 : Word).toNat) ∧
    8 < (9 : Word).toNat ∧ 8 < (0xFFFFFFFF : Word).toNat := by decide

theorem witness_SetRtrWritesItsBitAndForcesLengthZero :
    (1 : Word).getLsbD 0 = true ∧ (2 : Word).getLsbD 0 = false ∧ (4 : Fin 16).val = 4 ∧ 8 ≤ (8 : Fin 16).val ∧
    ((7 : Fin 16) ≠ 3 ∧ (7 : Fin 16) ≠ 4 ∧ (7 : Fin 16).val < 8) := by decide

theorem witness_PrdReturnsThePayloadByteOrFails :
    ((0 : Word).toNat < 8 ∧ (8 : Fin 16).val = 8 + (0 : Word).toNat) ∧
    ((7 : Word).toNat < 8 ∧ (15 : Fin 16).val = 8 + (7 : Word).toNat) ∧ 8 ≤ (8 : Word).toNat := by decide

theorem witness_PwrWritesThePayloadByteOrFails :
    ((7 : Word).toNat < 8 ∧ (15 : Fin 16).val = 8 + (7 : Word).toNat ∧ (7 : Fin 16).val ≠ 8 + (7 : Word).toNat) ∧
    8 ≤ (8 : Word).toNat := by decide

/-- A state whose MAX_ITEMS is 2. -/
def atMostTwo : State := State.launch { maxItems := some 2 } []

theorem atMostTwo_allows : AllowsItems atMostTwo 2 := by
  intro most h
  have : 2 = most := by simpa [atMostTwo] using h
  omega

theorem witness_BuildSerializesItsItemsOrFails :
    ((0x0130 : CommandWord).extractLsb' 0 8 = 0x30 ∧
      [(0x0200000005 : ItemWord)].length = ((0x0130 : CommandWord).extractLsb' 8 32).toNat) ∧
    (AllowsItems atMostTwo [Item.u16 1, .null].length ∧ ∀ tag v, Item.other tag v ∉ [Item.u16 1, .null]) ∧
    (AllowsItems atMostTwo [Item.byte 1, .other 6 0].length ∧ Item.other 6 0 ∈ [Item.byte 1, .other 6 0]) :=
  ⟨by decide, ⟨atMostTwo_allows, by simp⟩, atMostTwo_allows, by decide⟩

theorem witness_BuildAboveMaxItemsHasNoStep :
    (atMostTwo.config.maxItems = some 2 ∧ 2 < [Item.null, .null, .null].length) ∧
    State.reset.config.maxItems = none := by decide

theorem witness_ItemTagSelectsTheKind :
    (∀ tag ∈ [0x00#8, 0x01, 0x02, 0x03, 0x04, 0x05], (tag ++ 5#32 : ItemWord).extractLsb' 32 8 = tag) ∧
    6 ≤ ((0x06#8 ++ 5#32 : ItemWord).extractLsb' 32 8).toNat ∧
    6 ≤ ((0xFF#8 ++ 5#32 : ItemWord).extractLsb' 32 8).toNat := by decide

/-- SETEFF 1 leaves bit 6 of F[3] alone, and GETEFF answers the same from two states that differ in F[9] only. -/
theorem witness_CommandsReadAndWriteOnlyTheirBits :
    (∃ t, exec (.seteff 1) State.reset = .next t ∧ ¬ writesBit (.seteff 1) 3 6 ∧ writesBit (.seteff 1) 3 7) ∧
    (∃ t v, exec .geteff State.reset = .next t ∧
      exec .geteff (State.launch { maxItems := none } [(9, 0xCD)]) = .next v ∧
      ∀ (k : Fin 16) (b : Nat), readsBit .geteff k b → (State.reset.byte k).getLsbD b =
        ((State.launch { maxItems := none } [(9, 0xCD)]).byte k).getLsbD b) := by
  refine ⟨⟨_, (exec_seteff _ _).trans (respond_eq _ _), ?_, rfl, rfl⟩, _, _,
    (exec_geteff _).trans (respond_eq _ _), (exec_geteff _).trans (respond_eq _ _), ?_⟩
  · rintro ⟨-, h⟩; cases h
  · rintro k b ⟨hk, -⟩
    obtain rfl : k = 3 := Fin.ext hk
    rfl

/-- The step of a failing command (SETDLC 9): the hypotheses of the statements about one step on a command. -/
theorem witness_FailingCommandChangesNothing :
    ∃ t r, step (presented aa 0x0913 .none) = .next t ∧ t.output = (presented aa 0x0913 .none).output ++ [r] ∧
      r.status ≠ .ok := ⟨_, _, rfl, rfl, by decide⟩

theorem witness_EachCommandGetsOneResponseInOrder :
    ∃ t, (presented aa 0x10 .none).input = [.command ⟨0x10, .none⟩] ∧ step (presented aa 0x10 .none) = .next t :=
  ⟨_, rfl, rfl⟩

/-- Each status of a command of the map occurs. -/
theorem witness_EachErrorHasItsOnlyCause :
    ∀ c ∈ [(Instr.load [], Status.invalidLength), (.setdlc 9, .outOfRange), (.prd 8, .indexOutOfRange),
      (.pwr 8 0, .indexOutOfRange), (.build [.other 6 0], .unsupportedType), (.geteff, .ok)],
    ∃ t r, exec c.1 State.reset = .next t ∧ t.output = State.reset.output ++ [r] ∧ r.status = c.2 := by
  intro c hc
  fin_cases hc <;> exact ⟨_, _, rfl, rfl, rfl⟩

theorem witness_CommandsWithoutErrorAnswerOk :
    Instr.getid.opcode ∉ [Opcode.load, .setdlc, .prd, .pwr, .build] := by decide

theorem witness_ReadsHaveNoSideEffect : ∃ t,
    Instr.getdlc.opcode ∈ [Opcode.getid, .getdlc, .geteff, .getrtr, .geterr, .prd, .clone, .build] ∧
    exec .getdlc State.reset = .next t := ⟨_, by decide, rfl⟩

theorem witness_ReservedBytesKeptByFieldCommands : ∃ t,
    (Instr.setdlc 0).opcode ≠ .new ∧ (Instr.setdlc 0).opcode ≠ .load ∧ exec (.setdlc 0) State.reset = .next t :=
  ⟨_, by decide, by decide, rfl⟩

theorem witness_OnlyLoadStoresALengthAboveEight : ∃ t,
    (Instr.pwr 0 1).opcode ≠ .load ∧ exec (.pwr 0 1) (State.launch { maxItems := none } (frameOf aa)) = .next t ∧
    ((State.launch { maxItems := none } (frameOf aa)).byte 4).toNat ≤ 8 := ⟨_, by decide, rfl, by decide⟩

theorem witness_RepeatingACommand :
    (∃ t u, (Instr.seterr 1).opcode ∈ [Opcode.new, .load, .setdlc, .seteff, .setrtr, .seterr, .pwr] ∧
      exec (.seterr 1) State.reset = .next t ∧ exec (.seterr 1) t = .next u) ∧
    (∃ t u w, (∀ k, State.reset.byte k = 0x00) ∧ exec (.setid 0x12345678) State.reset = .next t ∧
      exec (.setid 0x12345678) t = .next u ∧ exec (.setid 0x12345678) u = .next w) :=
  ⟨⟨_, _, by decide, (exec_seterr _ _).trans (respond_eq _ _), (exec_seterr _ _).trans (respond_eq _ _)⟩,
    _, _, _, by decide, (exec_setid _ _).trans (respond_eq _ _), (exec_setid _ _).trans (respond_eq _ _),
    (exec_setid _ _).trans (respond_eq _ _)⟩

theorem witness_TailReadsZeroAfterSetDlc :
    ((0 : Word).toNat ≤ (0 : Word).toNat ∧ (0 : Word).toNat < 8) ∧
    ((7 : Word).toNat ≤ (7 : Word).toNat ∧ (7 : Word).toNat < 8) := by decide

theorem witness_LoadAndCloneAreInverse : scn.length = 16 := by decide

theorem witness_BuildOutputIsAtMostFourBytesAnItem :
    ∃ t r, exec (.build [.u32 1]) State.reset = .next t ∧ t.output = State.reset.output ++ [r] :=
  ⟨_, _, rfl, rfl⟩

theorem witness_BuilderIsBigEndianIdentifierLittleEndian :
    AllowsItems atMostTwo 1 ∧ (0x1FFFFFFF : Word).toNat < 2 ^ 29 ∧ (atMostTwo.byte 0).toNat < 2 ^ 5 :=
  ⟨fun most h => Nat.le_trans (by decide) (atMostTwo_allows most h), by decide, by decide⟩

/-- Two states that differ in EFF alone. -/
theorem witness_EffAndIdentifierAreIndependent :
    (∀ k, k ≠ 3 → State.reset.byte k = (State.launch { maxItems := none } [(3, 0x80)]).byte k) ∧
    ∀ i, i ≠ 7 → (State.reset.byte 3).getLsbD i =
      ((State.launch { maxItems := none } [(3, 0x80)]).byte 3).getLsbD i := by
  refine ⟨by decide, fun i hi => ?_⟩
  by_cases h : i < 8
  · have : i = 0 ∨ i = 1 ∨ i = 2 ∨ i = 3 ∨ i = 4 ∨ i = 5 ∨ i = 6 := by omega
    rcases this with rfl | rfl | rfl | rfl | rfl | rfl | rfl <;> rfl
  · rw [BitVec.getLsbD_of_ge _ _ (by omega), BitVec.getLsbD_of_ge _ _ (by omega)]

theorem witness_RecommendedOrderBuildsTheFrame :
    ((2 : Word).toNat ≤ 8 ∧ [0xAB#8, 0xCD].length = (2 : Word).toNat) ∧
    ((8 : Word).toNat ≤ 8 ∧ (List.replicate 8 0x99#8).length = (8 : Word).toNat) ∧
    ((0 : Word).toNat ≤ 8 ∧ ([] : List Byte).length = (0 : Word).toNat) := by decide

theorem witness_DecodeOfEncodeIsTheCommand : (Instr.build [.null, .bool 3, .other 0xFF 1]).wf = true := by decide

theorem witness_EncodeOfDecodeKeepsTheUsedFields :
    decode ⟨0x000000CD0000000121, .none⟩ = .command (.pwr 1 0xCD) ∧ (Instr.pwr 1 0xCD).opcode = .pwr ∧
    (Instr.pwr 1 0xCD).opcode ∈ [Opcode.load, .build, .setid, .setdlc, .seteff, .setrtr, .seterr, .prd, .pwr] := by
  decide

/-- Two words of SETID that differ in B, and two of GETID that differ in A and B. -/
theorem witness_UnusedFieldsHaveNoEffect :
    ((0x000000000000012311 : CommandWord).extractLsb' 0 8 = (0xFFFFFFFF0000012311 : CommandWord).extractLsb' 0 8 ∧
      (0x000000000000012311 : CommandWord).extractLsb' 8 32 = (0xFFFFFFFF0000012311 : CommandWord).extractLsb' 8 32 ∧
      (0x000000000000012311 : CommandWord).extractLsb' 0 8 ≠ 0x21) ∧
    ((0x10 : CommandWord).extractLsb' 0 8 = (0xFFFFFFFFFFFFFFFF10 : CommandWord).extractLsb' 0 8 ∧
      (0x10 : CommandWord).extractLsb' 0 8 ∉ [0x02#8, 0x30, 0x11, 0x13, 0x15, 0x17, 0x19, 0x20, 0x21]) := by decide

theorem witness_IllegalCommandIsAnsweredAndChangesNothing :
    (presented scn 0x31 .none).input = [.command ⟨0x31, .none⟩] ∧
    (0x31 : CommandWord).extractLsb' 0 8 ∉ [0x01#8, 0x02, 0x03, 0x10, 0x11, 0x12, 0x13, 0x14, 0x15, 0x16, 0x17, 0x18,
      0x19, 0x20, 0x21, 0x30] := by decide

theorem witness_CommandLengthComesFromOpAndA :
    decode ⟨0x0230, .items [0, 0]⟩ = .command (.build [.null, .null]) ∧
    (Instr.build [.null, .null]).opcode ∈ [Opcode.load, .build] := by decide

theorem witness_StepRunsTheDecodedCommand :
    (presented scn 0x10 .none).input = [.command ⟨0x10, .none⟩] ∧ decode ⟨0x10, .none⟩ = .command .getid := by decide

theorem witness_PlacedWordRunsNext : decodeTableWord 72 0x0202 = some (.load [0, 0]) := by decide

theorem witness_ResetZeroesTheFrameWithoutResponse :
    (State.reset.setInput [.reset, .reset]).input = .reset :: [.reset] := rfl

theorem witness_ResetStateIsTheZeroFrame : Memory.wf (State.launch { maxItems := none } [(9, 0xCD)]).frame := by decide

theorem witness_NothingPresentedHasNoStep : State.reset.input = [] := rfl

theorem witness_EveryPresentableCommandCompletes :
    (presented z 0x0130 (.items [5])).input = [.command ⟨0x0130, .items [5]⟩] ∧
    decode ⟨0x0130, .items [5]⟩ ≠ .unpresentable ∧
    ∀ items, decode ⟨0x0130, .items [5]⟩ = .command (.build items) →
      AllowsItems (presented z 0x0130 (.items [5])) items.length :=
  ⟨rfl, by decide, fun _ _ _ h => by cases h⟩

theorem witness_StepKeepsTheInvariant :
    ∃ t, (State.reset.withFetchWord 72 0x10).Inv ∧ step (State.reset.withFetchWord 72 0x10) = .next t :=
  ⟨_, ⟨nil_wf, fun r hr => by cases hr⟩, rfl⟩

end Sys2Proof.Tests
end

section
/-! SUPPORT. The byte order of the identifier and of the builder (20_memory.md R42, R43). -/

namespace Sys2Proof.Machine

theorem toNat_append_eq_mul_add {m n : Nat} (hi : BitVec m) (lo : BitVec n) :
    (hi ++ lo).toNat = hi.toNat * 2 ^ n + lo.toNat := by
  rw [BitVec.toNat_append, ← Nat.shiftLeft_add_eq_or_of_lt lo.isLt, Nat.shiftLeft_eq]

/-- The value of the identifier GETID reads, where `getLsbD_readIdentifier` gives its bits. -/
theorem toNat_readIdentifier (m : Memory) : (readIdentifier m).toNat = memRead m [0, 1, 2, 3] % 2 ^ 29 := by
  have h0 := (m.read 0).isLt
  have h1 := (m.read 1).isLt
  have h2 := (m.read 2).isLt
  simp only [readIdentifier, toNat_append_eq_mul_add, BitVec.extractLsb'_toNat, Nat.shiftRight_zero, memRead]
  omega

theorem toNat_setWidth_readIdentifier (m : Memory) :
    ((readIdentifier m).setWidth 32).toNat = memRead m [0, 1, 2, 3] % 2 ^ 29 := by
  rw [BitVec.toNat_setWidth_of_le (by decide), toNat_readIdentifier]

theorem length_emit_le (i : Item) : (emit i).length ≤ 4 := by
  cases i <;> simp [emit]

/-- BUILD of one supported item answers that item's bytes and their number. -/
theorem exec_build_singleton {s : State} {i : Item} (hs : AllowsItems s 1) (hi : unsupported i = false) :
    exec (.build [i]) s = .next (s.answer ⟨.ok, BitVec.ofNat 32 (emit i).length, emit i⟩) := by
  have hu : ¬ ∃ tag v, Item.other tag v ∈ [i] := by rw [← any_unsupported]; simp [hi]
  have he : emitAll [i] = emit i := by simp [emitAll]
  rw [exec_build, execBuild_ok hs hu, he, respondStream_small s (by have := length_emit_le i; omega)]

theorem getLsbD_valueByte (v : Word) (lo : Nat) {i : Nat} (hi : i < 8) :
    (valueByte v lo).getLsbD i = v.getLsbD (lo + i) := by
  simp only [valueByte, BitVec.getLsbD_extractLsb', hi, decide_true, Bool.true_and]

theorem getLsbD_valueByte_zero (v : Word) {i : Nat} (hi : i < 8) : (valueByte v 0).getLsbD i = v.getLsbD i := by
  rw [getLsbD_valueByte v 0 hi, Nat.zero_add]

/-- SETID's byte 3 is the value's top byte where no flag bit is copied in and the value has no bit above 28. -/
theorem byteThree_eq_valueByte {old0 : Byte} {v : Word} (h0 : old0.toNat < 2 ^ 5) (hv : v.toNat < 2 ^ 29) :
    old0.extractLsb' 5 3 ++ v.extractLsb' 24 5 = valueByte v 24 := by
  apply BitVec.eq_of_toNat_eq
  rw [toNat_append_eq_mul_add]
  simp only [valueByte, BitVec.extractLsb'_toNat, Nat.shiftRight_eq_div_pow]
  omega

/-- Read from F[3] down to F[0], what SETID stores is what a U32 item emits. -/
theorem writeIdentifier_read_down_eq_emit_u32 {m : Memory} {v : Word} (h0 : (m.read 0).toNat < 2 ^ 5)
    (hv : v.toNat < 2 ^ 29) :
    [3, 2, 1, 0].map (writeIdentifier v m).read = emit (.u32 v) := by
  simp [read_writeIdentifier, byteThree_eq_valueByte h0 hv, emit, valueByte]

/-- Settles O28: GETID answers the identifier, whose value is the little-endian read. -/
theorem identifierIsALittleEndianRead : Obligations.IdentifierIsALittleEndianRead := by
  intro s
  obtain ⟨t, ht, hr, -⟩ := respond_replies ((readIdentifier s.frame).setWidth 32) s
  exact ⟨t, _, (exec_getid s).trans ht, hr, toNat_setWidth_readIdentifier s.frame⟩

/-- Settles O29: each item alone answers what it emits, whose bytes are slices of VALUE from the top down; SETID's
bytes are the same slices at rising offsets. -/
theorem builderIsBigEndianIdentifierLittleEndian : Obligations.BuilderIsBigEndianIdentifierLittleEndian := by
  refine ⟨fun s v hs => ?u16, fun s v hs => ?u32⟩
  case u16 =>
    exact ⟨_, valueByte v 8, valueByte v 0, exec_build_singleton hs rfl, ⟨rfl, rfl, rfl⟩,
      fun _ => getLsbD_valueByte v 8, fun _ => getLsbD_valueByte_zero v⟩
  case u32 =>
    refine ⟨_, valueByte v 24, valueByte v 16, valueByte v 8, valueByte v 0, exec_build_singleton hs rfl,
      ⟨rfl, rfl, rfl⟩, fun _ => getLsbD_valueByte v 24, fun _ => getLsbD_valueByte v 16,
      fun _ => getLsbD_valueByte v 8, fun _ => getLsbD_valueByte_zero v, fun hv h0 => ?_⟩
    exact ⟨_, (exec_setid v s).trans (respond_eq _ _), writeIdentifier_read_down_eq_emit_u32 h0 hv⟩

end Sys2Proof.Machine
end

section
/-! SUPPORT. NEW and LOAD: the words that spell them and what they answer (40_lifecycle.md R80, R81). -/

namespace Sys2Proof

/-- A word whose OP is the opcode's number is that opcode, whatever its other bits are (30_encoding.md R55, R63). -/
theorem ofCode?_opField_of_eq_code {x : Transfer} {o : Opcode} (h : x.cw.extractLsb' 0 8 = o.code) :
    Opcode.ofCode? (opField x.cw) = some o := by
  rw [opField, h, ofCode?_code]

theorem readsAs_new : Machine.ReadsAs 0x01 .new := by
  intro x h
  have ho := ofCode?_opField_of_eq_code (o := .new) h
  simp only [decode, ho]

theorem decode_eq_decodeLoad {x : Transfer} (h : x.cw.extractLsb' 0 8 = 0x02) :
    decode x = decodeLoad (aField x.cw) x.stream := by
  have ho := ofCode?_opField_of_eq_code (o := .load) h
  simp only [decode, ho]

namespace Machine

/-- Settles O1: the opcode alone selects NEW, and a cleared frame reads 0x00 at every offset. -/
theorem newClearsTheFrame : Obligations.NewClearsTheFrame := by
  refine ⟨readsAs_new, fun s => ?_⟩
  obtain ⟨t, ht, hr, hf⟩ := respond_setFrame_replies s (clearFrame s.frame)
  exact ⟨t, (exec_new s).trans ht, hr, fun k => by rw [byte_eq, hf, read_clearFrame]⟩

/-- Settles O2: the stream is LOAD's buffer where its length is A, and the buffer's length alone decides between the
copy and InvalidLength. -/
theorem loadCopiesSixteenBytesOrFails : Obligations.LoadCopiesSixteenBytesOrFails := by
  refine ⟨fun x b hop hs hlen => ?word, fun s b hb => ?copied, fun s b hb => ?failed⟩
  case word =>
    rw [decode_eq_decodeLoad hop, decodeLoad_command, hs]
    exact ⟨b, rfl, hlen, rfl⟩
  case copied =>
    obtain ⟨t, ht, hr, hf⟩ := respond_setFrame_replies s (copyIn b hb s.frame)
    refine ⟨t, ?_, hr, fun k => ?_⟩
    · rw [exec_load, execLoad_ok hb, ht]
    · rw [byte_eq, hf, read_copyIn, List.getElem?_eq_getElem]
  case failed =>
    rw [exec_load, execLoad_error hb]
    exact raiseError_replies .invalidLength s

end Machine
end Sys2Proof
end

section
/-! SUPPORT. The field accessors: the words that spell them and what they answer (41_fields.md R85, R88, R89, R91, R93). -/

namespace Sys2Proof.Machine

/-- The decoder reads an opcode without operands as its bare command (30_encoding.md R56). -/
theorem decode_of_bareCommand {x : Transfer} {o : Opcode} {i : Instr} (ho : Opcode.ofCode? (opField x.cw) = some o)
    (h : bareCommand o = some i) : decode x = .command i := by
  cases o <;> cases h <;> simp only [decode, ho]

/-- The decoder reads an opcode with the one operand A as its command of field A (30_encoding.md R56). -/
theorem decode_of_operandCommand {x : Transfer} {o : Opcode} {i : Instr}
    (ho : Opcode.ofCode? (opField x.cw) = some o) (h : operandCommand o (aField x.cw) = some i) :
    decode x = .command i := by
  cases o <;> cases h <;> simp only [decode, ho]

theorem readsAs_of_bareCommand {o : Opcode} {i : Instr} (h : bareCommand o = some i) : ReadsAs o.code i :=
  fun _ hx => decode_of_bareCommand (ofCode?_opField_of_eq_code hx) h

theorem readsAsOfA_of_operandCommand {o : Opcode} {i : Word → Instr} (h : ∀ a, operandCommand o a = some (i a)) :
    ReadsAsOfA o.code i :=
  fun _ hx => decode_of_operandCommand (ofCode?_opField_of_eq_code hx) (h _)

/-- Zero extension keeps every bit, the bits above the old width reading 0 on both sides (00_scope.md R9). -/
theorem getLsbD_setWidth_of_le {v w : Nat} (h : v ≤ w) (x : BitVec v) (i : Nat) :
    (x.setWidth w).getLsbD i = x.getLsbD i := by
  rw [← BitVec.testBit_toNat, ← BitVec.testBit_toNat, BitVec.toNat_setWidth_of_le h]

theorem getLsbD_zextBit (x : Bool) (i : Nat) : (zextBit x).getLsbD i = (decide (i = 0) && x) := by
  rw [zextBit, getLsbD_setWidth_of_le (by decide), BitVec.getLsbD_ofBool]

/-- A flag getter answers its bit of F[3] in DATA[0], zeros above, and keeps F (41_fields.md R89, R91, R93). -/
theorem respondFlag_replies (f : Flag) (s : State) :
    ∃ t d, respondFlag f s = .next t ∧ RepliesOk s t d [] ∧ t.frame = s.frame ∧
      ∀ i, d.getLsbD i = (decide (i = 0) && (s.byte 3).getLsbD f.bit) := by
  obtain ⟨t, ht, hr, hf⟩ := respond_replies (zextBit (readFlag f s.frame)) s
  exact ⟨t, _, ht, hr, hf, getLsbD_zextBit _⟩

/-- Settles O4: GETID answers the zero-extended identifier, whose bits are the four bytes' in little-endian order. -/
theorem getIdReturnsTheIdentifier : Obligations.GetIdReturnsTheIdentifier := by
  refine ⟨readsAs_of_bareCommand (o := .getid) rfl, fun s => ?_⟩
  obtain ⟨t, ht, hr, hf⟩ := respond_replies ((readIdentifier s.frame).setWidth 32) s
  refine ⟨t, _, (exec_getid s).trans ht, hr, hf, fun i => ?_⟩
  exact (getLsbD_setWidth_of_le (by decide) _ i).trans (getLsbD_readIdentifier s.frame i)

/-- Settles O7: A alone decides between the length write with its zero-fill and OutOfRange. -/
theorem setDlcWritesLengthAndZeroesTheTail : Obligations.SetDlcWritesLengthAndZeroesTheTail := by
  refine ⟨readsAsOfA_of_operandCommand (o := .setdlc) fun _ => rfl, fun s a ha => ?written, fun s a ha => ?failed⟩
  case written =>
    obtain ⟨n, hn, he⟩ := execSetdlc_ok ha s
    obtain ⟨t, ht, hr, hf⟩ := respond_setFrame_replies s (setLength n s.frame)
    have hread (k : Fin 16) : t.byte k =
        if 8 + a.toNat ≤ k.val then 0x00 else if k = 4 then n else s.byte k := by
      rw [byte_eq, hf, read_setLength, hn, byte_eq]
    have hfour : ¬ 8 + a.toNat ≤ (4 : Fin 16).val := by omega
    refine ⟨t, ?_, hr, ?_, fun k hk => ?_, fun k hne hk => ?_⟩
    · rw [exec_setdlc, he, ht]
    · rw [hread, if_neg hfour, if_pos rfl, hn]
    · rw [hread, if_pos hk]
    · rw [hread, if_neg (by omega), if_neg hne]
  case failed =>
    rw [exec_setdlc, execSetdlc_error ha]
    exact raiseError_replies .outOfRange s

/-- Settles O8: the three getters are one operation at the three flags' bits. -/
theorem flagGettersReturnTheirBit : Obligations.FlagGettersReturnTheirBit := by
  refine ⟨readsAs_of_bareCommand (o := .geteff) rfl, readsAs_of_bareCommand (o := .getrtr) rfl,
    readsAs_of_bareCommand (o := .geterr) rfl, fun s => ?_⟩
  rw [exec_geteff, exec_getrtr, exec_geterr]
  exact ⟨respondFlag_replies .eff s, respondFlag_replies .rtr s, respondFlag_replies .err s⟩

end Sys2Proof.Machine
end

section
/-! SUPPORT. The one STATUS each command can answer, read off its operands (60_exceptions.md R115 to R118). -/

namespace Sys2Proof.Machine

/-- The STATUS a command answers with where it has a next state. `exec_answersWith` ties it to exec. -/
def statusOf : Instr → Status
  | .load buffer => if buffer.length = 16 then .ok else .invalidLength
  | .setdlc a => if a.toNat ≤ 8 then .ok else .outOfRange
  | .prd a => if a.toNat < 8 then .ok else .indexOutOfRange
  | .pwr a _ => if a.toNat < 8 then .ok else .indexOutOfRange
  | .build items => if items.any unsupported then .unsupportedType else .ok
  | .new => .ok
  | .clone => .ok
  | .getid => .ok
  | .setid _ => .ok
  | .getdlc => .ok
  | .geteff => .ok
  | .seteff _ => .ok
  | .getrtr => .ok
  | .setrtr _ => .ok
  | .geterr => .ok
  | .seterr _ => .ok

/-- The response an outcome adds to the output of s can only have STATUS e. -/
def AnswersWith (s : State) (e : Status) (o : Result) : Prop :=
  ∀ t r, o = .next t → t.output = s.output ++ [r] → r.status = e

/-- `u` is `s` after the command's own updates, none of which touches the output. -/
theorem answer_answersWith {s u : State} (h : u.output = s.output) (q : Response) :
    AnswersWith s q.status (.next (u.answer q)) := by
  rintro _ r ⟨⟩ hr
  rw [answer_output, h, List.append_cancel_left_eq, List.singleton_inj] at hr
  rw [hr]

theorem respond_answersWith {s u : State} (h : u.output = s.output) (d : Word) : AnswersWith s .ok (respond d u) :=
  answer_answersWith h _

theorem raiseError_answersWith (s : State) (e : Status) : AnswersWith s e (raiseError e s) :=
  answer_answersWith (draw_output s) _

theorem respondStream_answersWith (s : State) (b : List Byte) : AnswersWith s .ok (respondStream b s) := by
  unfold respondStream
  split
  · exact answer_answersWith rfl _
  · exact answer_answersWith (draw_output s) _

theorem execLoad_answersWith (b : List Byte) (s : State) : AnswersWith s (statusOf (.load b)) (execLoad b s) := by
  by_cases h : b.length = 16
  · rw [execLoad_ok h, statusOf, if_pos h]
    exact respond_answersWith rfl 0
  · rw [execLoad_error h, statusOf, if_neg h]
    exact raiseError_answersWith s _

theorem execSetdlc_answersWith (a : Word) (s : State) : AnswersWith s (statusOf (.setdlc a)) (execSetdlc a s) := by
  by_cases h : a.toNat ≤ 8
  · obtain ⟨n, -, hn⟩ := execSetdlc_ok h s
    rw [hn, statusOf, if_pos h]
    exact respond_answersWith rfl 0
  · rw [execSetdlc_error (by omega), statusOf, if_neg h]
    exact raiseError_answersWith s _

theorem execPrd_answersWith (a : Word) (s : State) : AnswersWith s (statusOf (.prd a)) (execPrd a s) := by
  by_cases h : a.toNat < 8
  · rw [execPrd_ok (k := ⟨8 + a.toNat, by omega⟩) h rfl, statusOf, if_pos h]
    exact respond_answersWith rfl _
  · rw [execPrd_error (by omega), statusOf, if_neg h]
    exact raiseError_answersWith s _

theorem execPwr_answersWith (a b : Word) (s : State) : AnswersWith s (statusOf (.pwr a b)) (execPwr a b s) := by
  by_cases h : a.toNat < 8
  · rw [execPwr_ok (k := ⟨8 + a.toNat, by omega⟩) h rfl, statusOf, if_pos h]
    exact respond_answersWith rfl 0
  · rw [execPwr_error (by omega), statusOf, if_neg h]
    exact raiseError_answersWith s _

theorem execSetrtr_answersWith (a : Word) (s : State) : AnswersWith s .ok (execSetrtr a s) := by
  cases h : flagOperand a with
  | true => rw [execSetrtr_one h]; exact respond_answersWith rfl 0
  | false => rw [execSetrtr_zero h]; exact respond_answersWith rfl 0

/-- Above MAX_ITEMS there is no next state and so no STATUS (30_encoding.md R59). -/
theorem execBuild_answersWith (items : List Item) (s : State) :
    AnswersWith s (statusOf (.build items)) (execBuild items s) := by
  by_cases hn : AllowsItems s items.length
  · rw [statusOf]
    split
    · next hu =>
      rw [execBuild_error hn (any_unsupported.mp hu)]
      exact raiseError_answersWith s _
    · next hu =>
      rw [execBuild_ok hn (mt any_unsupported.mpr hu)]
      exact respondStream_answersWith s _
  · rw [execBuild_refused hn]
    rintro _ _ ⟨⟩

theorem exec_answersWith (i : Instr) (s : State) : AnswersWith s (statusOf i) (exec i s) := by
  cases i with
  | new => rw [exec_new]; exact respond_answersWith rfl 0
  | load b => rw [exec_load]; exact execLoad_answersWith b s
  | clone => rw [exec_clone]; exact answer_answersWith rfl _
  | getid => rw [exec_getid]; exact respond_answersWith rfl _
  | setid a => rw [exec_setid]; exact respond_answersWith rfl 0
  | getdlc => rw [exec_getdlc]; exact respond_answersWith rfl _
  | setdlc a => rw [exec_setdlc]; exact execSetdlc_answersWith a s
  | geteff => rw [exec_geteff]; exact respond_answersWith rfl _
  | seteff a => rw [exec_seteff]; exact respond_answersWith rfl 0
  | getrtr => rw [exec_getrtr]; exact respond_answersWith rfl _
  | setrtr a => rw [exec_setrtr]; exact execSetrtr_answersWith a s
  | geterr => rw [exec_geterr]; exact respond_answersWith rfl _
  | seterr a => rw [exec_seterr]; exact respond_answersWith rfl 0
  | prd a => rw [exec_prd]; exact execPrd_answersWith a s
  | pwr a b => rw [exec_pwr]; exact execPwr_answersWith a b s
  | build items => rw [exec_build]; exact execBuild_answersWith items s

theorem statusOf_invalidLength {i : Instr} :
    statusOf i = .invalidLength ↔ ∃ buffer, i = .load buffer ∧ buffer.length ≠ 16 := by
  cases i
  case load b => simp [statusOf]
  all_goals simp [statusOf, ite_eq_iff]

theorem statusOf_outOfRange {i : Instr} : statusOf i = .outOfRange ↔ ∃ a : Word, i = .setdlc a ∧ 8 < a.toNat := by
  cases i
  case setdlc a => simp [statusOf]
  all_goals simp [statusOf, ite_eq_iff]

theorem statusOf_indexOutOfRange {i : Instr} :
    statusOf i = .indexOutOfRange ↔ ∃ a : Word, 8 ≤ a.toNat ∧ (i = .prd a ∨ ∃ b, i = .pwr a b) := by
  cases i
  case prd a => simp [statusOf]
  case pwr a b => simp [statusOf]
  all_goals simp [statusOf, ite_eq_iff]

theorem statusOf_unsupportedType {i : Instr} :
    statusOf i = .unsupportedType ↔ ∃ items tag v, i = .build items ∧ Item.other tag v ∈ items := by
  cases i
  case build items => simp [statusOf, any_unsupported, -List.any_eq_true]
  all_goals simp [statusOf, ite_eq_iff]

/-- Only an unassigned OP is illegal, and no command has one (60_exceptions.md R119). -/
theorem statusOf_ne_illegalCommand (i : Instr) : statusOf i ≠ .illegalCommand := by
  cases i <;> simp [statusOf, ite_eq_iff]

/-- Settles O19: the STATUS is the command's `statusOf`, whose branches are the four causes. -/
theorem eachErrorHasItsOnlyCause : Obligations.EachErrorHasItsOnlyCause := by
  intro i s t r ht hr
  rw [exec_answersWith i s t r ht hr]
  exact ⟨statusOf_invalidLength, statusOf_outOfRange, statusOf_indexOutOfRange, statusOf_unsupportedType,
    statusOf_ne_illegalCommand i⟩

end Sys2Proof.Machine
end

section
/-! SUPPORT. What each command does, as three functions of the command and the frame at entry: the frame it leaves, the
stream and the DATA it answers. `exec_completes` ties them to exec; the statements over all commands are read off
them. -/

namespace Sys2Proof.Machine

/-- The frame a command leaves where it has a next state. -/
def frameAfter : Instr → Memory → Memory
  | .new, m => clearFrame m
  | .load buffer, m => if h : buffer.length = 16 then copyIn buffer h m else m
  | .setid a, m => writeIdentifier a m
  | .setdlc a, m => if a.toNat ≤ 8 then setLength (a.extractLsb' 0 8) m else m
  | .seteff a, m => writeFlag .eff (flagOperand a) m
  | .setrtr a, m =>
    if flagOperand a then setLength 0 (writeFlag .rtr (flagOperand a) m) else writeFlag .rtr (flagOperand a) m
  | .seterr a, m => writeFlag .err (flagOperand a) m
  | .pwr a b, m => if h : a.toNat < 8 then m.write ⟨8 + a.toNat, by omega⟩ (byteOperand b) else m
  | .clone, m => m
  | .getid, m => m
  | .getdlc, m => m
  | .geteff, m => m
  | .getrtr, m => m
  | .geterr, m => m
  | .prd _, m => m
  | .build _, m => m

/-- The stream a command answers with, from the frame at its entry. -/
def streamOf : Instr → Memory → List Byte
  | .clone, m => frameBytes m
  | .build items, _ => if items.any unsupported then [] else emitAll items
  | .new, _ => []
  | .load _, _ => []
  | .getid, _ => []
  | .setid _, _ => []
  | .getdlc, _ => []
  | .setdlc _, _ => []
  | .geteff, _ => []
  | .seteff _, _ => []
  | .getrtr, _ => []
  | .setrtr _, _ => []
  | .geterr, _ => []
  | .seterr _, _ => []
  | .prd _, _ => []
  | .pwr _ _, _ => []

/-- The DATA of an OK answer whose stream 32 bits can count, from the frame at entry. -/
def dataOf : Instr → Memory → Word
  | .clone, _ => 16
  | .getid, m => (readIdentifier m).setWidth 32
  | .getdlc, m => zextByte (m.read 4)
  | .geteff, m => zextBit (readFlag .eff m)
  | .getrtr, m => zextBit (readFlag .rtr m)
  | .geterr, m => zextBit (readFlag .err m)
  | .prd a, m => if h : a.toNat < 8 then zextByte (m.read ⟨8 + a.toNat, by omega⟩) else 0
  | .build items, _ => BitVec.ofNat 32 (emitAll items).length
  | .new, _ => 0
  | .load _, _ => 0
  | .setid _, _ => 0
  | .setdlc _, _ => 0
  | .seteff _, _ => 0
  | .setrtr _, _ => 0
  | .seterr _, _ => 0
  | .pwr _ _, _ => 0

/-- From s to t the command i was carried out: the frame and the one response are those of the three functions, and the
rest of the interface is untouched. -/
structure Completes (i : Instr) (s t : State) : Prop where
  frame : t.frame = frameAfter i s.frame
  output : ∃ r, t.output = s.output ++ [r] ∧ r.status = statusOf i ∧ r.stream = streamOf i s.frame ∧
    (r.status = .ok → r.stream.length < 2 ^ 32 → r.data = dataOf i s.frame)
  input : t.input = s.input
  config : t.config = s.config

/-! The three ends of a command, each as a way to complete. -/

theorem respond_completes {i : Instr} {s t : State} {d : Word}
    (h : respond d (s.setFrame (frameAfter i s.frame)) = .next t) (hs : statusOf i = .ok)
    (hb : streamOf i s.frame = []) (hd : dataOf i s.frame = d) : Completes i s t := by
  rw [respond_next h]
  exact ⟨rfl, ⟨_, rfl, hs.symm, hb.symm, fun _ _ => hd.symm⟩, rfl, rfl⟩

theorem raiseError_completes {i : Instr} {s t : State} (h : raiseError (statusOf i) s = .next t)
    (hs : statusOf i ≠ .ok) (hf : frameAfter i s.frame = s.frame) (hb : streamOf i s.frame = []) :
    Completes i s t := by
  rw [raiseError_next h]
  exact ⟨hf.symm, ⟨_, rfl, rfl, hb.symm, fun e => absurd e hs⟩, rfl, rfl⟩

theorem respondStream_completes {i : Instr} {s t : State} {b : List Byte} (h : respondStream b s = .next t)
    (hs : statusOf i = .ok) (hf : frameAfter i s.frame = s.frame) (hb : streamOf i s.frame = b)
    (hd : dataOf i s.frame = BitVec.ofNat 32 b.length) : Completes i s t := by
  obtain ⟨u, d, hu, ⟨ho, hi, hc⟩, huf, hud⟩ := respondStream_replies b s
  obtain rfl : u = t := by simpa using hu.symm.trans h
  refine ⟨huf.trans hf.symm, ⟨_, ho, hs.symm, hb.symm, fun _ hl => ?_⟩, hi, hc⟩
  rw [hd, ← hud hl, BitVec.ofNat_toNat, BitVec.setWidth_eq]

/-! The commands that look at an operand before they end. -/

theorem execLoad_completes {b : List Byte} {s t : State} (h : execLoad b s = .next t) : Completes (.load b) s t := by
  by_cases hb : b.length = 16
  · rw [execLoad_ok hb] at h
    refine respond_completes (d := 0) ?_ (if_pos hb) rfl rfl
    rwa [frameAfter, dif_pos hb]
  · rw [execLoad_error hb] at h
    have hs : statusOf (.load b) = .invalidLength := if_neg hb
    exact raiseError_completes (by rwa [hs]) (by simp [hs]) (dif_neg hb) rfl

theorem execSetdlc_completes {a : Word} {s t : State} (h : execSetdlc a s = .next t) : Completes (.setdlc a) s t := by
  by_cases ha : a.toNat ≤ 8
  · have hl : lengthOperand a = some (a.extractLsb' 0 8) := if_neg (by omega)
    have he : execSetdlc a s = respond 0 (s.setFrame (setLength (a.extractLsb' 0 8) s.frame)) := by
      simp only [execSetdlc, hl]
    refine respond_completes (d := 0) ?_ (if_pos ha) rfl rfl
    rwa [frameAfter, if_pos ha, ← he]
  · rw [execSetdlc_error (by omega)] at h
    have hs : statusOf (.setdlc a) = .outOfRange := if_neg ha
    exact raiseError_completes (by rwa [hs]) (by simp [hs]) (if_neg ha) rfl

theorem execPrd_completes {a : Word} {s t : State} (h : execPrd a s = .next t) : Completes (.prd a) s t := by
  by_cases ha : a.toNat < 8
  · rw [execPrd_ok (k := ⟨8 + a.toNat, by omega⟩) ha rfl] at h
    exact respond_completes (i := .prd a) h (if_pos ha) rfl (dif_pos ha)
  · rw [execPrd_error (by omega)] at h
    have hs : statusOf (.prd a) = .indexOutOfRange := if_neg ha
    exact raiseError_completes (by rwa [hs]) (by simp [hs]) rfl rfl

theorem execPwr_completes {a b : Word} {s t : State} (h : execPwr a b s = .next t) : Completes (.pwr a b) s t := by
  by_cases ha : a.toNat < 8
  · rw [execPwr_ok (k := ⟨8 + a.toNat, by omega⟩) ha rfl] at h
    refine respond_completes (d := 0) ?_ (if_pos ha) rfl rfl
    rwa [frameAfter, dif_pos ha]
  · rw [execPwr_error (by omega)] at h
    have hs : statusOf (.pwr a b) = .indexOutOfRange := if_neg ha
    exact raiseError_completes (by rwa [hs]) (by simp [hs]) (dif_neg ha) rfl

theorem execBuild_completes {items : List Item} {s t : State} (h : execBuild items s = .next t) :
    Completes (.build items) s t := by
  by_cases hn : AllowsItems s items.length
  · by_cases hu : items.any unsupported
    · rw [execBuild_error hn (any_unsupported.mp hu)] at h
      have hs : statusOf (.build items) = .unsupportedType := if_pos hu
      exact raiseError_completes (by rwa [hs]) (by simp [hs]) rfl (if_pos hu)
    · rw [execBuild_ok hn (mt any_unsupported.mpr hu)] at h
      exact respondStream_completes h (if_neg hu) rfl (if_neg hu) rfl
  · rw [execBuild_refused hn] at h
    cases h

/-- What a command that has a next state does. -/
theorem exec_completes {i : Instr} {s t : State} (h : exec i s = .next t) : Completes i s t := by
  cases i with
  | new => exact respond_completes ((exec_new s).symm.trans h) rfl rfl rfl
  | load b => exact execLoad_completes ((exec_load b s).symm.trans h)
  | clone => exact respondStream_completes (b := frameBytes s.frame) h rfl rfl rfl (by rw [length_frameBytes]; rfl)
  | getid => exact respond_completes (i := .getid) ((exec_getid s).symm.trans h) rfl rfl rfl
  | setid a => exact respond_completes ((exec_setid a s).symm.trans h) rfl rfl rfl
  | getdlc => exact respond_completes (i := .getdlc) ((exec_getdlc s).symm.trans h) rfl rfl rfl
  | setdlc a => exact execSetdlc_completes ((exec_setdlc a s).symm.trans h)
  | geteff => exact respond_completes (i := .geteff) ((exec_geteff s).symm.trans h) rfl rfl rfl
  | seteff a => exact respond_completes ((exec_seteff a s).symm.trans h) rfl rfl rfl
  | getrtr => exact respond_completes (i := .getrtr) ((exec_getrtr s).symm.trans h) rfl rfl rfl
  | setrtr a => exact respond_completes ((exec_setrtr a s).symm.trans h) rfl rfl rfl
  | geterr => exact respond_completes (i := .geterr) ((exec_geterr s).symm.trans h) rfl rfl rfl
  | seterr a => exact respond_completes ((exec_seterr a s).symm.trans h) rfl rfl rfl
  | prd a => exact execPrd_completes ((exec_prd a s).symm.trans h)
  | pwr a b => exact execPwr_completes ((exec_pwr a b s).symm.trans h)
  | build items => exact execBuild_completes ((exec_build items s).symm.trans h)

/-- MAX_ITEMS allows the command: only a BUILD can exceed it (30_encoding.md R59). -/
def AllowsCommand (s : State) (i : Instr) : Prop := ∀ items, i = .build items → AllowsItems s items.length

theorem allowsCommand_build {s : State} {items : List Item} (h : AllowsItems s items.length) :
    AllowsCommand s (.build items) := by
  rintro _ ⟨⟩
  exact h

theorem allowsCommand_of_opcode {i : Instr} (h : i.opcode ≠ .build) (s : State) : AllowsCommand s i := by
  rintro _ rfl
  exact absurd rfl h

theorem respond_total (d : Word) (s : State) : ∃ t, respond d s = .next t := ⟨_, rfl⟩

theorem raiseError_total (e : Status) (s : State) : ∃ t, raiseError e s = .next t := ⟨_, rfl⟩

theorem respondStream_total (b : List Byte) (s : State) : ∃ t, respondStream b s = .next t :=
  (respondStream_replies b s).imp fun _ ⟨_, h, _⟩ => h

/-- Every command that MAX_ITEMS allows has a next state (60_exceptions.md R113, R122). -/
theorem exec_total {i : Instr} {s : State} (h : AllowsCommand s i) : ∃ t, exec i s = .next t := by
  cases i with
  | load b =>
    rw [exec_load, execLoad]
    split
    · exact respond_total _ _
    · exact raiseError_total _ s
  | clone => exact ⟨_, exec_clone s⟩
  | setdlc a =>
    rw [exec_setdlc, execSetdlc]
    split
    · exact raiseError_total _ s
    · exact respond_total _ _
  | prd a =>
    rw [exec_prd, execPrd]
    split
    · exact raiseError_total _ s
    · exact respond_total _ s
  | pwr a b =>
    rw [exec_pwr, execPwr]
    split
    · exact raiseError_total _ s
    · exact respond_total _ _
  | build items =>
    rw [exec_build, execBuild, if_pos (acceptsItems_iff.mpr (h items rfl))]
    split
    · exact raiseError_total _ s
    · exact respondStream_total _ s
  | _ => exact respond_total _ _

theorem exec_spec {i : Instr} {s : State} (h : AllowsCommand s i) : ∃ t, exec i s = .next t ∧ Completes i s t :=
  (exec_total h).imp fun _ ht => ⟨ht, exec_completes ht⟩

/-! What an answer's STATUS says of the other two functions (30_encoding.md R62, 60_exceptions.md R113). -/

theorem frameAfter_of_error {i : Instr} (h : statusOf i ≠ .ok) (m : Memory) : frameAfter i m = m := by
  cases i with
  | load b => exact dif_neg fun hb => h (if_pos hb)
  | setdlc a => exact if_neg fun ha => h (if_pos ha)
  | pwr a b => exact dif_neg fun ha => h (if_pos ha)
  | prd _ => rfl
  | build _ => rfl
  | _ => exact absurd rfl h

theorem streamOf_of_error {i : Instr} (h : statusOf i ≠ .ok) (m : Memory) : streamOf i m = [] := by
  cases i with
  | build items => exact if_pos (by by_contra hu; exact h (if_neg hu))
  | clone => exact absurd rfl h
  | _ => rfl

/-- DATA counts the bytes of a stream. -/
theorem toNat_dataOf {i : Instr} {m : Memory} (hs : statusOf i = .ok) (hne : streamOf i m ≠ [])
    (hl : (streamOf i m).length < 2 ^ 32) : (dataOf i m).toNat = (streamOf i m).length := by
  cases i with
  | clone => exact (length_frameBytes m).symm
  | build items =>
    have hu : ¬ items.any unsupported := fun hu => by simp [statusOf, hu] at hs
    rw [streamOf, if_neg hu] at hl ⊢
    rw [dataOf, BitVec.toNat_ofNat, Nat.mod_eq_of_lt hl]
  | _ => exact absurd rfl hne

theorem Completes.repliesOk {i : Instr} {s t : State} (h : Completes i s t) (hs : statusOf i = .ok)
    (hl : (streamOf i s.frame).length < 2 ^ 32) : RepliesOk s t (dataOf i s.frame) (streamOf i s.frame) := by
  obtain ⟨⟨e, d, b⟩, ho, rfl, rfl, hd⟩ := h.output
  obtain rfl := hd hs hl
  exact ⟨by rw [ho, hs], h.input, h.config⟩

theorem Completes.repliesError {i : Instr} {s t : State} (h : Completes i s t) (hs : statusOf i ≠ .ok) :
    RepliesError s t (statusOf i) := by
  obtain ⟨⟨e, d, b⟩, ho, rfl, rfl, -⟩ := h.output
  exact ⟨⟨d, by rw [ho, streamOf_of_error hs]⟩, h.frame.trans (frameAfter_of_error hs _), h.input, h.config⟩

theorem Completes.answered {i : Instr} {s t : State} (h : Completes i s t) : Answered s t := by
  obtain ⟨r, ho, hs, hb, hd⟩ := h.output
  refine ⟨⟨r, ho, ⟨fun he => ?_, fun he hne hl => ?_⟩, fun he => ?_⟩, h.input, h.config⟩
  · rw [hb, streamOf_of_error (hs ▸ he)]
  · rw [hd he hl, hb]
    exact toNat_dataOf (hs ▸ he) (hb ▸ hne) (hb ▸ hl)
  · rw [h.frame, frameAfter_of_error (hs ▸ he)]

theorem frameAfter_wf (i : Instr) {m : Memory} (h : Memory.wf m) : Memory.wf (frameAfter i m) := by
  cases i with
  | new => exact clearFrame_wf h
  | load b => rw [frameAfter]; split; exacts [copyIn_wf b _ h, h]
  | setid a => exact writeIdentifier_wf a h
  | setdlc a => rw [frameAfter]; split; exacts [setLength_wf _ h, h]
  | seteff a => exact writeFlag_wf _ _ h
  | setrtr a => rw [frameAfter]; split; exacts [setLength_wf _ (writeFlag_wf _ _ h), writeFlag_wf _ _ h]
  | seterr a => exact writeFlag_wf _ _ h
  | pwr a b => rw [frameAfter]; split; exacts [write_wf h _ _, h]
  | _ => exact h

end Sys2Proof.Machine
end

section
/-! SUPPORT. What a step does, and the statements about one step: the invariant, one response for each command, errors,
reset and what is refused (10_state.md R20, R30, R31; 60_exceptions.md R113, R119, R122). -/

namespace Sys2Proof.Machine

/-- The STATUS of an unassigned OP is an error, answered like any other. -/
theorem takeIllegalCommand_answered {s t : State} (h : takeIllegalCommand s = .next t) :
    Answered s t ∧ t.frame = s.frame := by
  obtain ⟨u, hu, -, hf, -⟩ := raiseError_replies .illegalCommand s
  obtain rfl : u = t := by simpa using hu.symm.trans h
  exact ⟨raiseError_answered (by decide) h, hf⟩

/-- A step that takes a presented command carries out what it decodes to, or answers the illegal command. -/
theorem step_command_next {s t : State} {x : Transfer} {later : List HostInput} (hi : s.input = .command x :: later)
    (h : step s = .next t) :
    (∃ i, decode x = .command i ∧ exec i (s.setInput later) = .next t) ∨
      takeIllegalCommand (s.setInput later) = .next t := by
  rw [step_command hi] at h
  cases hd : decode x with
  | command i => rw [hd] at h; exact .inl ⟨i, rfl, h⟩
  | illegal op => rw [hd] at h; exact .inr h
  | unpresentable => rw [hd] at h; cases h

theorem step_command_answered {s t : State} {x : Transfer} {later : List HostInput}
    (hi : s.input = .command x :: later) (h : step s = .next t) : Answered (s.setInput later) t := by
  rcases step_command_next hi h with ⟨i, -, he⟩ | he
  · exact (exec_completes he).answered
  · exact (takeIllegalCommand_answered he).1

/-- A step leaves the frame of the command it carries out, or the cleared frame of a reset, or the frame as it was. -/
theorem step_frame {s t : State} (h : step s = .next t) :
    (∃ i, t.frame = frameAfter i s.frame) ∨ t.frame = clearFrame s.frame ∨ t.frame = s.frame := by
  rcases hi : s.input with _ | ⟨x | _, later⟩
  · rw [step_nil hi] at h; cases h
  · rcases step_command_next hi h with ⟨i, -, he⟩ | he
    · exact .inl ⟨i, (exec_completes he).frame⟩
    · exact .inr (.inr (takeIllegalCommand_answered he).2)
  · rw [step_reset hi] at h
    rw [takeReset_next h, setFrame_frame, setInput_frame]
    exact .inr (.inl rfl)

/-- A step hands out at most one response, of the shape of R62. -/
theorem step_output {s t : State} (h : step s = .next t) :
    t.output = s.output ∨ ∃ r, t.output = s.output ++ [r] ∧ r.wf := by
  rcases hi : s.input with _ | ⟨x | _, later⟩
  · rw [step_nil hi] at h; cases h
  · obtain ⟨r, ho, hr, -⟩ := (step_command_answered hi h).output
    exact .inr ⟨r, ho, hr⟩
  · rw [step_reset hi] at h
    rw [takeReset_next h, setFrame_output, setInput_output]
    exact .inl rfl

/-- Settles O48: each frame a step can leave is canonical, and the response it adds has the shape of R62. -/
theorem stepKeepsTheInvariant : Obligations.StepKeepsTheInvariant := by
  rintro s t ⟨hwf, hout⟩ h
  refine ⟨?frame, ?output⟩
  case frame =>
    rcases step_frame h with ⟨i, hf⟩ | hf | hf <;> rw [hf]
    exacts [frameAfter_wf i hwf, clearFrame_wf hwf, hwf]
  case output =>
    rcases step_output h with ho | ⟨r, ho, hr⟩ <;> rw [ho]
    · exact hout
    · intro q hq
      rcases List.mem_append.mp hq with hq | hq
      · exact hout q hq
      · rwa [List.mem_singleton.mp hq]

/-- Settles O49: nothing has been answered yet, and either no cell is listed or every byte was stored by writes. -/
theorem launchStatesMeetTheInvariant : Obligations.LaunchStatesMeetTheInvariant :=
  ⟨⟨reset_frame_wf, fun _ h => by cases h⟩, fun _ => ⟨storeEach_wf _ _ nil_wf, fun _ h => by cases h⟩⟩

/-- Settles O17: a command and an illegal command both answer once. -/
theorem eachCommandGetsOneResponseInOrder : Obligations.EachCommandGetsOneResponseInOrder := by
  intro s t x later hi h
  obtain ⟨⟨r, ho, -⟩, hin, hc⟩ := step_command_answered hi h
  exact ⟨⟨r, ho⟩, hin, hc⟩

/-- Settles O18: the response named is the one that was added, and an error comes with F as it was. -/
theorem failingCommandChangesNothing : Obligations.FailingCommandChangesNothing := by
  intro s t x later r hi h hr he
  obtain ⟨⟨q, ho, ⟨hstream, -⟩, hf⟩, hin, hc⟩ := step_command_answered hi h
  obtain rfl : q = r := by simpa using ho.symm.trans hr
  exact ⟨hf he, hstream he, hin, hc⟩

/-- Settles O42: `step_command` at the arm of a command. -/
theorem stepRunsTheDecodedCommand : Obligations.StepRunsTheDecodedCommand := by
  intro s x later i hi hd
  rw [step_command hi, hd]

theorem decodeTableWord_eq_some {nbits w : Nat} {i : Instr} :
    decodeTableWord nbits w = some i ↔ decode (tableTransfer nbits w) = .command i := by
  unfold decodeTableWord
  cases decode (tableTransfer nbits w) <;> simp

/-- Settles O43: the placed word is the oldest input, and taking it leaves the state it was placed in. -/
theorem placedWordRunsNext : Obligations.PlacedWordRunsNext := by
  intro s nbits w i hd
  exact stepRunsTheDecodedCommand _ _ _ i rfl (decodeTableWord_eq_some.mp hd)

theorem takeReset_effect (s : State) : ∃ t, takeReset s = .next t ∧ t.frame = clearFrame s.frame ∧
    t.output = s.output ∧ t.input = s.input ∧ t.config = s.config := by
  refine ⟨s.setFrame (clearFrame s.frame), takeReset_eq s, ?_⟩
  simp only [setFrame_frame, setFrame_output, setFrame_input, setFrame_config, and_self]

/-- Settles O44: reset and NEW clear the same frame. -/
theorem resetZeroesTheFrameWithoutResponse : Obligations.ResetZeroesTheFrameWithoutResponse := by
  intro s later hi
  obtain ⟨t, ht, htf, ho, hin, hc⟩ := takeReset_effect (s.setInput later)
  obtain ⟨u, hu, -, huf⟩ := respond_setFrame_replies s (clearFrame s.frame)
  refine ⟨t, u, (step_reset hi).trans ht, fun k => ?_, ho, hin, hc, (exec_new s).trans hu, ?_⟩
  · rw [byte_eq, htf, read_clearFrame]
  · rw [huf, htf, setInput_frame]

/-- Settles O45: a canonical frame that reads zero everywhere lists nothing. -/
theorem resetStateIsTheZeroFrame : Obligations.ResetStateIsTheZeroFrame := by
  refine ⟨read_nil, fun s hs => ?_⟩
  obtain ⟨t, ht, -, hf⟩ := respond_setFrame_replies s (clearFrame s.frame)
  exact ⟨t, (exec_new s).trans ht, hf.trans (clearFrame_eq_nil hs)⟩

/-- Settles O46: `step_nil` is the statement. -/
theorem nothingPresentedHasNoStep : Obligations.NothingPresentedHasNoStep := fun _ => step_nil

/-- Settles O47: a command that MAX_ITEMS allows completes, and so does an illegal one. -/
theorem everyPresentableCommandCompletes : Obligations.EveryPresentableCommandCompletes := by
  intro s x later hi hne hallow
  rw [step_command hi]
  cases hd : decode x with
  | command i => exact exec_total fun items hb => hallow items (hb ▸ hd)
  | illegal op => exact raiseError_total _ _
  | unpresentable => exact absurd hd hne

/-- Settles O14: MAX_ITEMS alone decides whether a BUILD has a next state. -/
theorem buildAboveMaxItemsHasNoStep : Obligations.BuildAboveMaxItemsHasNoStep := by
  refine ⟨fun s items most hm hlt => ?refused, fun s items hm => ?accepted⟩
  case refused =>
    rw [exec_build, execBuild_refused fun hle => absurd (hle most hm) (by omega)]
  case accepted =>
    exact exec_total (allowsCommand_build fun most h => by rw [hm] at h; cases h)

/-- Settles O20: the five commands left out are the only ones with an error of their own. -/
theorem commandsWithoutErrorAnswerOk : Obligations.CommandsWithoutErrorAnswerOk := by
  intro i s hop
  have hs : statusOf i = .ok := by
    cases i
    case load | setdlc | prd | pwr | build => simp [Instr.opcode] at hop
    all_goals rfl
  have hb : i.opcode ≠ .build := fun e => hop (by simp [e])
  obtain ⟨t, ht, hc⟩ := exec_spec (allowsCommand_of_opcode hb s)
  obtain ⟨r, ho, hr, -⟩ := hc.output
  exact ⟨t, r, ht, ho, hr.trans hs⟩

/-- Settles O21: the frame after each of the eight is the frame at entry. -/
theorem readsHaveNoSideEffect : Obligations.ReadsHaveNoSideEffect := by
  intro i s t hop h
  rw [(exec_completes h).frame]
  cases i
  case new | load | setid | setdlc | seteff | setrtr | seterr | pwr => simp [Instr.opcode] at hop
  all_goals rfl

end Sys2Proof.Machine
end

section
/-! SUPPORT. The read and write sets of the commands (20_memory.md R47): bits outside the write set are kept, and what a
command answers and writes depends on its read set alone. The statements about one bit, one byte or two commands in turn
are read off these two facts. -/

namespace Sys2Proof.Machine

/-- Two frames agree on every bit that a command reads. -/
def AgreeOnReads (i : Instr) (m n : Memory) : Prop :=
  ∀ (k : Fin 16) (b : Nat), readsBit i k b → (m.read k).getLsbD b = (n.read k).getLsbD b

/-! The bytes and bits that each writing command leaves. -/

theorem getLsbD_read_writeFlag (f : Flag) (x : Bool) (m : Memory) (k : Fin 16) (b : Nat) :
    ((writeFlag f x m).read k).getLsbD b = if k.val = 3 ∧ b = f.bit then x else (m.read k).getLsbD b := by
  rw [read_writeFlag]
  by_cases hk : k = 3
  · subst hk
    simp only [if_true, getLsbD_setBit _ _ _ _ (flag_bit_lt f), show (3 : Fin 16).val = 3 from rfl, true_and]
  · have hv : k.val ≠ 3 := fun e => hk (Fin.ext e)
    simp only [hk, hv, if_false, false_and]

/-- Byte 3 after SETID: five bits of the operand under the top bits of F[0] (41_fields.md R86). -/
theorem getLsbD_read_writeIdentifier_three (a : Word) (m : Memory) {b : Nat} (hb : b < 8) :
    ((writeIdentifier a m).read 3).getLsbD b = if b < 5 then a.getLsbD (24 + b) else (m.read 0).getLsbD b := by
  rw [read_writeIdentifier, if_pos rfl, getLsbD_byteThree]
  by_cases h5 : b < 5
  · simp only [h5, if_true, BitVec.getLsbD_extractLsb', decide_true, Bool.true_and]
  · simp only [h5, if_false, BitVec.getLsbD_extractLsb', show b - 5 < 3 by omega, decide_true, Bool.true_and,
      show 5 + (b - 5) = b by omega]

theorem read_writeIdentifier_zero (a : Word) (m : Memory) :
    (writeIdentifier a m).read 0 = a.extractLsb' 0 8 := by
  rw [read_writeIdentifier, if_neg (by decide), if_neg (by decide), if_neg (by decide), if_pos rfl]

theorem read_writeIdentifier_of_le {k : Fin 16} (h : 4 ≤ k.val) (a : Word) (m : Memory) :
    (writeIdentifier a m).read k = m.read k := by
  have hne (j : Fin 16) (hj : j.val < 4) : k ≠ j := fun e => by rw [e] at h; omega
  rw [read_writeIdentifier, if_neg (hne 3 (by decide)), if_neg (hne 2 (by decide)), if_neg (hne 1 (by decide)),
    if_neg (hne 0 (by decide))]

theorem toNat_extractLsb'_of_le_eight {a : Word} (h : a.toNat ≤ 8) : (a.extractLsb' 0 8).toNat = a.toNat := by
  rw [BitVec.extractLsb'_toNat, Nat.shiftRight_zero, Nat.mod_eq_of_lt (by omega)]

theorem read_frameAfter_setdlc {a : Word} (h : a.toNat ≤ 8) (m : Memory) (k : Fin 16) :
    (frameAfter (.setdlc a) m).read k =
      if 8 + a.toNat ≤ k.val then 0x00 else if k = 4 then a.extractLsb' 0 8 else m.read k := by
  rw [frameAfter, if_pos h, read_setLength, toNat_extractLsb'_of_le_eight h]

theorem getLsbD_read_frameAfter_setrtr (a : Word) (m : Memory) (k : Fin 16) (b : Nat) :
    ((frameAfter (.setrtr a) m).read k).getLsbD b =
      if a.getLsbD 0 = true ∧ (k.val = 4 ∨ 8 ≤ k.val) then false
      else if k.val = 3 ∧ b = 6 then a.getLsbD 0 else (m.read k).getLsbD b := by
  rw [← show Flag.rtr.bit = 6 from rfl, ← getLsbD_read_writeFlag, ← show flagOperand a = a.getLsbD 0 from rfl,
    frameAfter]
  cases flagOperand a with
  | false => rfl
  | true =>
    simp only [true_and, if_true, read_setLength, Fin.ext_iff]
    by_cases h8 : 8 ≤ k.val
    · simp [h8]
    · by_cases h4 : k.val = 4
      · simp [h4]
      · simp [h8, h4, -read_writeFlag]

theorem read_frameAfter_setrtr (a : Word) (m : Memory) {k : Fin 16} (hk : k.val = 4 ∨ 8 ≤ k.val) :
    (frameAfter (.setrtr a) m).read k = if a.getLsbD 0 then 0x00 else m.read k := by
  refine BitVec.eq_of_getLsbD_eq fun b _ => ?_
  have h3 : ¬ (k.val = 3 ∧ b = 6) := by omega
  rw [getLsbD_read_frameAfter_setrtr, if_neg h3]
  cases a.getLsbD 0 <;> simp [hk]

theorem read_frameAfter_pwr {a : Word} (h : a.toNat < 8) (b : Word) (m : Memory) (k : Fin 16) :
    (frameAfter (.pwr a b) m).read k = if k.val = 8 + a.toNat then byteOperand b else m.read k := by
  simp only [frameAfter, dif_pos h, read_write, Fin.ext_iff]

/-- A bit outside the write set keeps its value. -/
theorem frameAfter_keeps {i : Instr} {k : Fin 16} {b : Nat} (h : ¬ writesBit i k b) (m : Memory) :
    ((frameAfter i m).read k).getLsbD b = (m.read k).getLsbD b := by
  cases i with
  | new => exact absurd trivial h
  | load buffer =>
    have hl : ¬ buffer.length = 16 := h
    rw [frameAfter, dif_neg hl]
  | setid a => rw [frameAfter, read_writeIdentifier_of_le (Nat.le_of_not_lt h)]
  | setdlc a =>
    by_cases ha : a.toNat ≤ 8
    · obtain ⟨h4, h8⟩ := not_or.mp fun hk => h ⟨ha, hk⟩
      rw [read_frameAfter_setdlc ha, if_neg h8, if_neg fun e : k = 4 => h4 (congrArg Fin.val e)]
    · rw [frameAfter, if_neg ha]
  | seteff a => exact (getLsbD_read_writeFlag .eff _ m k b).trans (if_neg h)
  | seterr a => exact (getLsbD_read_writeFlag .err _ m k b).trans (if_neg h)
  | setrtr a =>
    obtain ⟨hflag, hlength⟩ := not_or.mp h
    rw [getLsbD_read_frameAfter_setrtr, if_neg hlength, if_neg hflag]
  | pwr a v =>
    by_cases ha : a.toNat < 8
    · rw [read_frameAfter_pwr ha, if_neg fun hk => h ⟨ha, hk⟩]
    · rw [frameAfter, dif_neg ha]
  | _ => rfl

/-- A written bit comes out the same from two frames that agree on the read set. -/
theorem frameAfter_agrees {i : Instr} {m n : Memory} (h : AgreeOnReads i m n) {k : Fin 16} {b : Nat}
    (hw : writesBit i k b) (hb : b < 8) :
    ((frameAfter i m).read k).getLsbD b = ((frameAfter i n).read k).getLsbD b := by
  cases i with
  | new => simp only [frameAfter, read_clearFrame]
  | load buffer =>
    have hl : buffer.length = 16 := hw
    simp only [frameAfter, dif_pos hl, read_copyIn]
  | setid a =>
    have hk : k.val < 4 := hw
    by_cases h3 : k = 3
    · rw [h3, frameAfter, frameAfter, getLsbD_read_writeIdentifier_three a m hb,
        getLsbD_read_writeIdentifier_three a n hb]
      by_cases h5 : b < 5
      · rw [if_pos h5, if_pos h5]
      · rw [if_neg h5, if_neg h5, h 0 b ⟨rfl, by omega⟩]
    · have hlow : k = 2 ∨ k = 1 ∨ k = 0 := by omega
      simp only [frameAfter, read_writeIdentifier]
      rcases hlow with rfl | rfl | rfl <;> rfl
  | setdlc a =>
    obtain ⟨ha, hk⟩ := hw
    rw [read_frameAfter_setdlc ha, read_frameAfter_setdlc ha]
    by_cases h8 : 8 + a.toNat ≤ k.val
    · rw [if_pos h8, if_pos h8]
    · have h4 : k = 4 := Fin.ext (hk.resolve_right h8)
      rw [if_neg h8, if_neg h8, if_pos h4, if_pos h4]
  | seteff a =>
    have hk : k.val = 3 ∧ b = Flag.eff.bit := hw
    rw [frameAfter, frameAfter, getLsbD_read_writeFlag, getLsbD_read_writeFlag, if_pos hk, if_pos hk]
  | seterr a =>
    have hk : k.val = 3 ∧ b = Flag.err.bit := hw
    rw [frameAfter, frameAfter, getLsbD_read_writeFlag, getLsbD_read_writeFlag, if_pos hk, if_pos hk]
  | setrtr a =>
    rw [getLsbD_read_frameAfter_setrtr, getLsbD_read_frameAfter_setrtr]
    rcases hw with hk | hk
    · rw [if_pos hk, if_pos hk]
    · rw [if_pos hk, if_pos hk]
  | pwr a v =>
    obtain ⟨ha, hk⟩ := hw
    rw [read_frameAfter_pwr ha, read_frameAfter_pwr ha, if_pos hk, if_pos hk]
  | _ => exact hw.elim

theorem readIdentifier_congr {m n : Memory} (h : AgreeOnReads .getid m n) : readIdentifier m = readIdentifier n := by
  apply BitVec.eq_of_getLsbD_eq
  intro i hi
  rw [getLsbD_readIdentifier, getLsbD_readIdentifier, h 0 i (.inl (by decide)), h 1 (i - 8) (.inl (by decide)),
    h 2 (i - 16) (.inl (by decide))]
  by_cases h3 : i < 24
  · simp only [h3, if_true]
  · rw [h 3 (i - 24) (.inr ⟨rfl, by omega⟩)]

theorem read_congr {m n : Memory} {k : Fin 16} (h : ∀ b, (m.read k).getLsbD b = (n.read k).getLsbD b) :
    m.read k = n.read k :=
  BitVec.eq_of_getLsbD_eq fun b _ => h b

theorem dataOf_congr {i : Instr} {m n : Memory} (h : AgreeOnReads i m n) : dataOf i m = dataOf i n := by
  cases i with
  | getid => rw [dataOf, dataOf, readIdentifier_congr h]
  | getdlc => rw [dataOf, dataOf, read_congr fun b => h 4 b rfl]
  | geteff => exact congrArg zextBit (h 3 7 ⟨rfl, rfl⟩)
  | getrtr => exact congrArg zextBit (h 3 6 ⟨rfl, rfl⟩)
  | geterr => exact congrArg zextBit (h 3 5 ⟨rfl, rfl⟩)
  | prd a =>
    by_cases ha : a.toNat < 8
    · rw [dataOf, dataOf, dif_pos ha, dif_pos ha, read_congr fun b => h _ b ⟨ha, rfl⟩]
    · rw [dataOf, dataOf, dif_neg ha, dif_neg ha]
  | _ => rfl

theorem streamOf_congr {i : Instr} {m n : Memory} (h : AgreeOnReads i m n) : streamOf i m = streamOf i n := by
  cases i with
  | clone => exact List.map_congr_left fun k _ => read_congr fun b => h k b trivial
  | _ => rfl

/-- Settles O16: each clause reads one of the three functions at the two frames. -/
theorem commandsReadAndWriteOnlyTheirBits : Obligations.CommandsReadAndWriteOnlyTheirBits := by
  refine ⟨fun i s t ht k b hw => ?kept, fun i s u t v _ ht hv hagree => ⟨?answer, fun k b hw hb => ?written⟩⟩
  case kept =>
    rw [byte_eq, (exec_completes ht).frame]
    exact frameAfter_keeps hw s.frame
  case answer =>
    obtain ⟨r, hro, hrs, hrb, hrd⟩ := (exec_completes ht).output
    obtain ⟨q, hqo, hqs, hqb, hqd⟩ := (exec_completes hv).output
    have hs : r.status = q.status := hrs.trans hqs.symm
    have hb : r.stream = q.stream := by rw [hrb, hqb, streamOf_congr hagree]
    refine ⟨r, q, hro, hqo, hs, hb, fun hok hl => ?_⟩
    rw [hrd hok hl, hqd (hs ▸ hok) (hb ▸ hl), dataOf_congr hagree]
  case written =>
    rw [byte_eq, byte_eq, (exec_completes ht).frame, (exec_completes hv).frame]
    exact frameAfter_agrees hagree hw hb

/-! Whole bytes. -/

theorem read_frameAfter_of_not_writes {i : Instr} {k : Fin 16} (h : ∀ b, ¬ writesBit i k b) (m : Memory) :
    (frameAfter i m).read k = m.read k :=
  read_congr fun b => frameAfter_keeps (h b) m

/-- From two frames that agree on the read set and on the bits a command keeps, it leaves the same bytes. -/
theorem read_frameAfter_congr {i : Instr} {m n : Memory} {k : Fin 16} (h : AgreeOnReads i m n)
    (hk : ∀ b, ¬ writesBit i k b → (m.read k).getLsbD b = (n.read k).getLsbD b) :
    (frameAfter i m).read k = (frameAfter i n).read k := by
  apply BitVec.eq_of_getLsbD_eq
  intro b hb
  by_cases hw : writesBit i k b
  · exact frameAfter_agrees h hw hb
  · rw [frameAfter_keeps hw, frameAfter_keeps hw, hk b hw]

/-- What a command reads is what another leaves, where the other writes none of it. -/
theorem agreeOnReads_frameAfter {i j : Instr} (h : ∀ k b, readsBit i k b → ¬ writesBit j k b) (m : Memory) :
    AgreeOnReads i (frameAfter j m) m :=
  fun k b hr => frameAfter_keeps (h k b hr) m

/-- Only NEW and LOAD write into bytes 5 to 7 (decision D26). -/
theorem not_writesBit_reserved {i : Instr} (hnew : i.opcode ≠ .new) (hload : i.opcode ≠ .load) {k : Fin 16}
    (h5 : 5 ≤ k.val) (h8 : k.val < 8) (b : Nat) : ¬ writesBit i k b := by
  cases i
  case new => exact absurd rfl hnew
  case load => exact absurd rfl hload
  case setid | setdlc | seteff | setrtr | seterr | pwr => simp only [writesBit]; omega
  all_goals exact not_false

/-- Settles O22: no command but NEW and LOAD has a bit of bytes 5 to 7 in its write set. -/
theorem reservedBytesKeptByFieldCommands : Obligations.ReservedBytesKeptByFieldCommands := by
  intro i s t hnew hload h
  have hkeep (k : Fin 16) (h5 : 5 ≤ k.val) (h8 : k.val < 8) : t.byte k = s.byte k := by
    rw [byte_eq, (exec_completes h).frame, byte_eq]
    exact read_frameAfter_of_not_writes (not_writesBit_reserved hnew hload h5 h8) s.frame
  exact ⟨hkeep 5 (by decide) (by decide), hkeep 6 (by decide) (by decide), hkeep 7 (by decide) (by decide)⟩

/-- Settles O23: NEW and SETRTR can only write 0 there, SETDLC at most 8, and the others nothing. -/
theorem onlyLoadStoresALengthAboveEight : Obligations.OnlyLoadStoresALengthAboveEight := by
  intro i s t hload h hle
  rw [byte_eq, (exec_completes h).frame]
  by_cases hw : ∀ b, ¬ writesBit i 4 b
  · rwa [read_frameAfter_of_not_writes hw]
  · cases i
    case load => exact absurd rfl hload
    case new => rw [frameAfter, read_clearFrame]; decide
    case setdlc a =>
      by_cases ha : a.toNat ≤ 8
      · rwa [read_frameAfter_setdlc ha, if_neg (by omega), if_pos rfl, toNat_extractLsb'_of_le_eight ha]
      · exact absurd (fun _ hk => ha hk.1) hw
    case setrtr a =>
      rw [read_frameAfter_setrtr a _ (.inl rfl)]
      split
      · decide
      · exact hle
    case pwr a v =>
      have hne : (4 : Fin 16).val ≠ 8 + a.toNat := by omega
      exact absurd (fun _ hk => hne hk.2) hw
    all_goals exact absurd (fun _ hk => by simp [writesBit] at hk) hw

/-! Repeated commands. -/

/-- A command whose first issue leaves what it reads as it was leaves the same bytes when it is issued again. -/
theorem read_frameAfter_twice {i : Instr} {m : Memory} (h : AgreeOnReads i (frameAfter i m) m) (k : Fin 16) :
    (frameAfter i (frameAfter i m)).read k = (frameAfter i m).read k :=
  read_frameAfter_congr h fun _ hw => frameAfter_keeps hw m

/-- Seven of the eight writing commands read nothing of F (20_memory.md R47, R49). -/
theorem not_readsBit_of_idempotent {i : Instr}
    (h : i.opcode ∈ [Opcode.new, .load, .setdlc, .seteff, .setrtr, .seterr, .pwr]) (k : Fin 16) (b : Nat) :
    ¬ readsBit i k b := by
  cases i
  case new | load | setdlc | seteff | setrtr | seterr | pwr => exact not_false
  all_goals simp [Instr.opcode] at h

/-- Settles O24: a second issue reads nothing that the first changed, so it writes the same bits again; SETID reads
F[0][7:5], which its first issue sets to v[7:5] and its second leaves so. -/
theorem repeatingACommand : Obligations.RepeatingACommand := by
  refine ⟨fun i s t u hop ht hu k => ?idempotent, fun v s t u w ht hu hw => ?settles, fun s t u h0 ht hu => ?vector⟩
  all_goals
    replace ht := (exec_completes ht).frame
    replace hu := (exec_completes hu).frame
  case idempotent =>
    rw [byte_eq, byte_eq, hu, ht]
    exact read_frameAfter_twice (fun k b hr => absurd hr (not_readsBit_of_idempotent hop k b)) k
  case settles =>
    have hzero : t.frame.read 0 = v.extractLsb' 0 8 := ht ▸ read_writeIdentifier_zero v s.frame
    refine ⟨fun b h5 h8 => ⟨?_, ?_⟩, fun k => ?_⟩
    · rw [byte_eq, ht, frameAfter, getLsbD_read_writeIdentifier_three v _ h8, if_neg (by omega), byte_eq]
    · rw [byte_eq, hu, frameAfter, getLsbD_read_writeIdentifier_three v _ h8, if_neg (by omega), hzero]
      simp only [BitVec.getLsbD_extractLsb', h8, decide_true, Bool.true_and, Nat.zero_add]
    · rw [byte_eq, byte_eq, (exec_completes hw).frame, hu]
      refine read_frameAfter_twice (fun j b hr => ?_) k
      obtain rfl : j = 0 := Fin.ext hr.1
      rw [frameAfter, read_writeIdentifier_zero, hzero]
  case vector =>
    have hs : s.frame.read 0 = 0x00 := h0 0
    have hzero : t.frame.read 0 = 0x78 := by rw [ht, frameAfter, read_writeIdentifier_zero]; decide
    simp only [byte_eq, hu, frameAfter, read_writeIdentifier, if_true, hzero]
    simp only [ht, frameAfter, read_writeIdentifier, if_true, hs]
    decide

end Sys2Proof.Machine
end

section
/-! SUPPORT. The remaining commands one by one: the words that spell them, and each answer and frame read off
`exec_completes` (41_fields.md, 42_payload_clone.md, 43_build_payload.md). -/

namespace Sys2Proof

theorem decode_eq_pwr {x : Transfer} (h : x.cw.extractLsb' 0 8 = 0x21) :
    decode x = .command (.pwr (aField x.cw) (bField x.cw)) := by
  have ho := ofCode?_opField_of_eq_code (o := .pwr) h
  simp only [decode, ho]

theorem decode_eq_decodeBuild {x : Transfer} (h : x.cw.extractLsb' 0 8 = 0x30) :
    decode x = decodeBuild (aField x.cw) x.stream := by
  have ho := ofCode?_opField_of_eq_code (o := .build) h
  simp only [decode, ho]

namespace Machine

/-- A command without an error of its own and without a stream answers OK with its DATA, and leaves its frame. -/
theorem exec_replies {i : Instr} {s : State} (h : AllowsCommand s i) (hs : statusOf i = .ok)
    (hb : streamOf i s.frame = []) :
    ∃ t, exec i s = .next t ∧ RepliesOk s t (dataOf i s.frame) [] ∧
      ∀ k, t.byte k = (frameAfter i s.frame).read k := by
  obtain ⟨t, ht, hc⟩ := exec_spec h
  have hr := hc.repliesOk hs (by rw [hb]; decide)
  rw [hb] at hr
  exact ⟨t, ht, hr, fun k => by rw [byte_eq, hc.frame]⟩

/-- A command whose operands are in error answers that error and keeps F. -/
theorem exec_repliesError {i : Instr} {s : State} (h : AllowsCommand s i) {e : Status} (hs : statusOf i = e)
    (he : e ≠ .ok) : ∃ t, exec i s = .next t ∧ RepliesError s t e := by
  subst hs
  obtain ⟨t, ht, hc⟩ := exec_spec h
  exact ⟨t, ht, hc.repliesError he⟩

/-- Settles O5: SETID's bytes are slices of A, and byte 3 takes its top bits from the F[0] of entry. -/
theorem setIdWritesIdentifierAndAliasesFlags : Obligations.SetIdWritesIdentifierAndAliasesFlags := by
  refine ⟨readsAsOfA_of_operandCommand (o := .setid) fun _ => rfl, fun s a => ?_⟩
  obtain ⟨t, ht, hr, hbyte⟩ := exec_replies (i := .setid a) (s := s) nofun rfl rfl
  refine ⟨t, ht, hr, fun b hb => ?_, fun b hb => ?_, fun b hb => ?_, fun b hb => ?_, fun b h5 h8 => ?_,
    fun k hk => ?_⟩
  · simp [hbyte, frameAfter, read_writeIdentifier, hb]
  · simp [hbyte, frameAfter, read_writeIdentifier, hb]
  · simp [hbyte, frameAfter, read_writeIdentifier, hb]
  · rw [hbyte, frameAfter, getLsbD_read_writeIdentifier_three a _ (by omega), if_pos hb]
  · rw [hbyte, frameAfter, getLsbD_read_writeIdentifier_three a _ h8, if_neg (by omega), byte_eq]
  · rw [hbyte, frameAfter, read_writeIdentifier_of_le hk, byte_eq]

/-- A flag setter that writes A[0] into its bit and nothing else. -/
theorem setFlag_effect {i : Instr} {f : Flag} {a : Word} {s : State} (h : AllowsCommand s i) (hs : statusOf i = .ok)
    (hstream : streamOf i s.frame = []) (hd : dataOf i s.frame = 0)
    (hf : frameAfter i s.frame = writeFlag f (flagOperand a) s.frame) :
    ∃ t, exec i s = .next t ∧ RepliesOk s t 0 [] ∧
      (∀ b, (t.byte 3).getLsbD b = if b = f.bit then a.getLsbD 0 else (s.byte 3).getLsbD b) ∧
      ∀ k : Fin 16, k ≠ 3 → t.byte k = s.byte k := by
  obtain ⟨t, ht, hr, hbyte⟩ := exec_replies h hs hstream
  rw [hd] at hr
  refine ⟨t, ht, hr, fun b => ?_, fun k hk => ?_⟩
  · rw [hbyte, hf, getLsbD_read_writeFlag]
    simp only [show (3 : Fin 16).val = 3 from rfl, true_and, flagOperand, byte_eq]
  · rw [hbyte, hf, read_writeFlag, if_neg hk, byte_eq]

/-- Settles O9: the two setters are one operation at the two flags' bits. -/
theorem setEffAndSetErrWriteOneBit : Obligations.SetEffAndSetErrWriteOneBit :=
  ⟨readsAsOfA_of_operandCommand (o := .seteff) fun _ => rfl, readsAsOfA_of_operandCommand (o := .seterr) fun _ => rfl,
    fun _ a => ⟨setFlag_effect (i := .seteff a) nofun rfl rfl rfl rfl,
      setFlag_effect (i := .seterr a) nofun rfl rfl rfl rfl⟩⟩

/-- Settles O10: A[0] decides whether the length and the payload are zeroed beside the flag's write. -/
theorem setRtrWritesItsBitAndForcesLengthZero : Obligations.SetRtrWritesItsBitAndForcesLengthZero := by
  refine ⟨readsAsOfA_of_operandCommand (o := .setrtr) fun _ => rfl, fun s a => ?_⟩
  obtain ⟨t, ht, hr, hbyte⟩ := exec_replies (i := .setrtr a) (s := s) nofun rfl rfl
  refine ⟨t, ht, hr, fun b => ?flag, fun k hk => ?length, fun k h3 h4 h8 => ?kept⟩
  case flag =>
    rw [hbyte, getLsbD_read_frameAfter_setrtr, if_neg (by simp)]
    simp only [show (3 : Fin 16).val = 3 from rfl, true_and, byte_eq]
  case length => rw [hbyte, read_frameAfter_setrtr a _ hk, byte_eq]
  case kept =>
    rw [hbyte, byte_eq]
    refine read_frameAfter_of_not_writes (fun b hw => ?_) s.frame
    rcases hw with ⟨hk, -⟩ | ⟨-, hk⟩ <;> omega

/-- Settles O6: DATA is the zero-extended byte, whose value is the byte's. -/
theorem getDlcReturnsByteFour : Obligations.GetDlcReturnsByteFour := by
  refine ⟨readsAs_of_bareCommand (o := .getdlc) rfl, fun s => ?_⟩
  obtain ⟨t, ht, hr, hf⟩ := respond_replies (zextByte (s.byte 4)) s
  exact ⟨t, _, (exec_getdlc s).trans ht, hr, hf, toNat_zextByte _⟩

/-- Settles O11: A alone decides between the byte at offset 8+A and IndexOutOfRange. -/
theorem prdReturnsThePayloadByteOrFails : Obligations.PrdReturnsThePayloadByteOrFails := by
  refine ⟨readsAsOfA_of_operandCommand (o := .prd) fun _ => rfl, fun s a k ha hk => ?read, fun s a ha => ?failed⟩
  case read =>
    obtain ⟨t, ht, hr, hf⟩ := respond_replies (zextByte (s.byte k)) s
    rw [exec_prd, execPrd_ok ha hk]
    exact ⟨t, _, ht, hr, hf, toNat_zextByte _⟩
  case failed =>
    exact exec_repliesError (i := .prd a) nofun (if_neg (by omega)) (by decide)

/-- Settles O12: A alone decides between the write at offset 8+A and IndexOutOfRange. -/
theorem pwrWritesThePayloadByteOrFails : Obligations.PwrWritesThePayloadByteOrFails := by
  refine ⟨fun _ => decode_eq_pwr, fun s a b ha => ?written, fun s a b ha => ?failed⟩
  case written =>
    obtain ⟨t, ht, hr, hbyte⟩ := exec_replies (i := .pwr a b) (s := s) nofun (if_pos ha) rfl
    refine ⟨t, ht, hr, fun k hk => ?_, fun k hk => ?_⟩
    · rw [hbyte, read_frameAfter_pwr ha, if_pos hk, byteOperand, BitVec.extractLsb'_toNat, Nat.shiftRight_zero]
    · rw [hbyte, read_frameAfter_pwr ha, if_neg hk, byte_eq]
  case failed =>
    exact exec_repliesError (i := .pwr a b) nofun (if_neg (by omega)) (by decide)

/-- Settles O3: CLONE's stream is the list of the sixteen reads. -/
theorem cloneReturnsTheSixteenBytes : Obligations.CloneReturnsTheSixteenBytes :=
  ⟨readsAs_of_bareCommand (o := .clone) rfl, fun s =>
    ⟨_, frameBytes s.frame, exec_clone s, ⟨rfl, rfl, rfl⟩, rfl, length_frameBytes _, getElem?_frameBytes _⟩⟩

/-! BUILD. -/

theorem toNat_valueByte (v : Word) (lo : Nat) : (valueByte v lo).toNat = v.toNat / 2 ^ lo % 2 ^ 8 := by
  rw [valueByte, BitVec.extractLsb'_toNat, Nat.shiftRight_eq_div_pow]

theorem toNat_valueByte_zero (v : Word) : (valueByte v 0).toNat = v.toNat % 2 ^ 8 := by
  rw [toNat_valueByte, Nat.pow_zero, Nat.div_one]

/-- A supported item emits the bytes of its kind (43_build_payload.md R106 to R111). -/
theorem emits_emit {i : Item} (h : ∀ tag v, i ≠ .other tag v) : Emits i (emit i) := by
  cases i with
  | null => rfl
  | bool v =>
    refine ⟨_, rfl, ?_⟩
    have hm : v.getLsbD 0 = decide (v.toNat % 2 = 1) := by
      rw [← BitVec.testBit_toNat, Nat.testBit_zero]
    rw [hm]
    rcases Nat.mod_two_eq_zero_or_one v.toNat with e | e <;> simp [e]
  | byte v => exact ⟨_, rfl, toNat_valueByte_zero v⟩
  | u16 v =>
    refine ⟨_, _, rfl, ?_⟩
    rw [toNat_valueByte, toNat_valueByte_zero]
    omega
  | u32 v =>
    refine ⟨_, _, _, _, rfl, ?_⟩
    have hv := v.isLt
    rw [toNat_valueByte, toNat_valueByte, toNat_valueByte, toNat_valueByte_zero]
    omega
  | enum v => exact ⟨_, rfl, toNat_valueByte_zero v⟩
  | other tag v => exact absurd rfl (h tag v)

theorem forall₂_emits {items : List Item} (h : ∀ tag v, Item.other tag v ∉ items) :
    List.Forall₂ Emits items (items.map emit) := by
  rw [List.forall₂_map_right_iff, List.forall₂_same]
  exact fun i hi => emits_emit fun tag v e => h tag v (e ▸ hi)

theorem flatten_map_emit (items : List Item) : (items.map emit).flatten = emitAll items :=
  List.flatMap_def.symm

theorem length_emitAll_le (items : List Item) : (emitAll items).length ≤ 4 * items.length := by
  induction items with
  | nil => exact Nat.le_refl 0
  | cons i items ih =>
    have hi := length_emit_le i
    rw [emitAll, List.flatMap_cons, ← emitAll, List.length_append, List.length_cons]
    omega

/-- Settles O13: the items' emissions one after another are the stream, unless an item is unsupported. -/
theorem buildSerializesItsItemsOrFails : Obligations.BuildSerializesItsItemsOrFails := by
  refine ⟨fun x ws hop hx hlen => ?word, fun s items hs hn => ?built, fun s items tag v hs hm => ?failed⟩
  case word =>
    rw [decode_eq_decodeBuild hop, decodeBuild_command, hx]
    exact ⟨ws, rfl, hlen, rfl⟩
  case built =>
    obtain ⟨t, d, ht, hr, hf, hd⟩ := respondStream_replies (emitAll items) s
    refine ⟨t, d, items.map emit, ?_, ?_, hf, forall₂_emits hn, ?_⟩
    · rw [exec_build, execBuild_ok hs (fun ⟨tag, v, hm⟩ => hn tag v hm), ht]
    · rwa [flatten_map_emit]
    · rwa [flatten_map_emit]
  case failed =>
    rw [exec_build, execBuild_error hs ⟨tag, v, hm⟩]
    exact raiseError_replies .unsupportedType s

/-- Settles O31: an answer's stream is empty or what the items emit. -/
theorem buildOutputIsAtMostFourBytesAnItem : Obligations.BuildOutputIsAtMostFourBytesAnItem := by
  intro s t items r h hr
  obtain ⟨q, ho, -, hb, -⟩ := (exec_completes h).output
  obtain rfl : q = r := by simpa using ho.symm.trans hr
  rw [hb, streamOf]
  split
  · exact Nat.zero_le _
  · exact length_emitAll_le items

/-- Settles O15: the arms of `decodeItem` are chosen by the TAG's value. -/
theorem itemTagSelectsTheKind : Obligations.ItemTagSelectsTheKind := by
  intro w
  have hkind (n : Nat) (h : itemTag w = BitVec.ofNat 8 n) (hn : n < 256) : (itemTag w).toNat = n := by
    rw [h, BitVec.toNat_ofNat, Nat.mod_eq_of_lt hn]
  refine ⟨fun h => ?_, fun h => ?_, fun h => ?_, fun h => ?_, fun h => ?_, fun h => ?_, decodeItem_other⟩
  · simp only [decodeItem, hkind 0 h (by decide)]
  · simp only [decodeItem, hkind 1 h (by decide)]; rfl
  · simp only [decodeItem, hkind 2 h (by decide)]; rfl
  · simp only [decodeItem, hkind 3 h (by decide)]; rfl
  · simp only [decodeItem, hkind 4 h (by decide)]; rfl
  · simp only [decodeItem, hkind 5 h (by decide)]; rfl

end Machine
end Sys2Proof
end

section
/-! SUPPORT. Commands one after another (20_memory.md R50): what a later command reads is what an earlier one left, and a
list of commands keeps every bit that none of them writes. -/

namespace Sys2Proof.Machine

theorem exec_getid_replies (s : State) :
    ∃ t, exec .getid s = .next t ∧ RepliesOk s t ((readIdentifier s.frame).setWidth 32) [] :=
  (exec_replies (i := .getid) (s := s) nofun rfl rfl).imp fun _ ⟨ht, hr, _⟩ => ⟨ht, hr⟩

/-- Settles O25: the identifier that SETID leaves is A[28:0]. -/
theorem setIdThenGetIdRoundTrips : Obligations.SetIdThenGetIdRoundTrips := by
  intro s v
  obtain ⟨t, ht, hc⟩ := exec_spec (i := .setid v) (s := s) nofun
  obtain ⟨u, hu, hr⟩ := exec_getid_replies t
  refine ⟨t, u, _, ht, hu, hr, ?_⟩
  rw [hc.frame, frameAfter, readIdentifier_writeIdentifier, BitVec.toNat_setWidth_of_le (by decide),
    BitVec.extractLsb'_toNat, Nat.shiftRight_zero]

/-- Settles O26: offset 8+i lies in the tail that SETDLC zeroes. -/
theorem tailReadsZeroAfterSetDlc : Obligations.TailReadsZeroAfterSetDlc := by
  intro s n i hni hi
  obtain ⟨t, ht, hc⟩ := exec_spec (i := .setdlc n) (s := s) nofun
  obtain ⟨u, hu, hr, -⟩ := exec_replies (i := .prd i) (s := t) nofun (if_pos hi) rfl
  have hzero : t.frame.read ⟨8 + i.toNat, by omega⟩ = 0x00 := by
    rw [hc.frame, read_frameAfter_setdlc (by omega), if_pos (Nat.add_le_add_left hni 8)]
  rw [dataOf, dif_pos hi, hzero] at hr
  exact ⟨t, u, ht, hu, hr⟩

theorem exec_load_next {buffer : List Byte} (hb : buffer.length = 16) (s : State) :
    ∃ t, exec (.load buffer) s = .next t ∧ ∀ k : Fin 16, buffer[k.val]? = some (t.byte k) := by
  obtain ⟨-, hcopied, -⟩ := loadCopiesSixteenBytesOrFails
  obtain ⟨t, ht, -, hk⟩ := hcopied s buffer hb
  exact ⟨t, ht, hk⟩

/-- Two streams of sixteen bytes with the same element at every offset are the same. -/
theorem eq_of_getElem?_eq_some {p q : List Byte} (hp : p.length = 16) (hq : q.length = 16) {f : Fin 16 → Byte}
    (hpf : ∀ k : Fin 16, p[k.val]? = some (f k)) (hqf : ∀ k : Fin 16, q[k.val]? = some (f k)) : p = q := by
  apply List.ext_getElem?
  intro k
  by_cases hk : k < 16
  · exact (hpf ⟨k, hk⟩).trans (hqf ⟨k, hk⟩).symm
  · rw [List.getElem?_eq_none (by omega), List.getElem?_eq_none (by omega)]

/-- Settles O27: LOAD's buffer and CLONE's stream both have F[k] as element k. -/
theorem loadAndCloneAreInverse : Obligations.LoadAndCloneAreInverse := by
  refine ⟨fun s buffer hb => ?loaded, fun s u => ?restored⟩
  case loaded =>
    obtain ⟨t, ht, hload⟩ := exec_load_next hb s
    obtain ⟨u, bytes, hu, hr, -, hlen, hclone⟩ := cloneReturnsTheSixteenBytes.2 t
    obtain rfl := eq_of_getElem?_eq_some hlen hb hclone hload
    exact ⟨t, u, ht, hu, hr⟩
  case restored =>
    obtain ⟨t, bytes, ht, hr, -, hlen, hclone⟩ := cloneReturnsTheSixteenBytes.2 s
    obtain ⟨v, hv, hload⟩ := exec_load_next hlen u
    exact ⟨t, bytes, v, ht, hr, hv, fun k => Option.some.inj ((hload k).symm.trans (hclone k))⟩

/-- The flag setters and SETDLC write none of the bits of the identifier. -/
theorem readIdentifier_frameAfter {i : Instr} (h : i.opcode ∈ [Opcode.seteff, .seterr, .setrtr, .setdlc])
    (m : Memory) : readIdentifier (frameAfter i m) = readIdentifier m := by
  refine readIdentifier_congr (agreeOnReads_frameAfter (fun k b hr hw => ?_) m)
  have hk : k.val < 3 ∨ k.val = 3 ∧ b < 5 := hr
  cases i
  case seteff | seterr | setrtr | setdlc => simp only [writesBit] at hw; omega
  all_goals simp [Instr.opcode] at h

/-- Settles O30: EFF, bit 7 of F[3], is outside the read sets of GETID and SETID and outside what GETID reads of
SETEFF's frame; SETID fills it from F[0]. -/
theorem effAndIdentifierAreIndependent : Obligations.EffAndIdentifierAreIndependent := by
  refine ⟨fun s u hbytes hbits => ⟨?getid, fun a => ?setid⟩, fun s a b => ?eff, fun s a => ?seteff⟩
  case getid =>
    obtain ⟨t, ht, hr⟩ := exec_getid_replies s
    obtain ⟨v, hv, hq⟩ := exec_getid_replies u
    have hid : readIdentifier s.frame = readIdentifier u.frame := by
      apply readIdentifier_congr
      rintro k b (hk | ⟨hk, hb⟩)
      · rw [← byte_eq, ← byte_eq, hbytes k fun e => by rw [e] at hk; exact absurd hk (by decide)]
      · obtain rfl : k = 3 := Fin.ext hk
        exact hbits b (by omega)
    exact ⟨t, v, _, ht, hv, hr, hid ▸ hq⟩
  case setid =>
    obtain ⟨t, ht, hc⟩ := exec_spec (i := .setid a) (s := s) nofun
    obtain ⟨v, hv, hd⟩ := exec_spec (i := .setid a) (s := u) nofun
    refine ⟨t, v, ht, hv, fun k => ?_⟩
    rw [byte_eq, byte_eq, hc.frame, hd.frame]
    refine read_frameAfter_congr (fun j b hj => ?_) fun b hw => ?_
    · obtain rfl : j = 0 := Fin.ext hj.1
      exact congrArg (BitVec.getLsbD · b) (hbytes 0 (by decide))
    · have hk : k ≠ 3 := fun e => hw (by rw [e]; exact show 3 < 4 by decide)
      exact congrArg (BitVec.getLsbD · b) (hbytes k hk)
  case eff =>
    obtain ⟨t, ht, hc⟩ := exec_spec (i := .setid a) (s := s) nofun
    obtain ⟨v, hv, hd⟩ := exec_spec (i := .setid b) (s := s) nofun
    refine ⟨t, v, ht, hv, ?_⟩
    rw [byte_eq, byte_eq, hc.frame, hd.frame, frameAfter, frameAfter,
      getLsbD_read_writeIdentifier_three a _ (by decide), getLsbD_read_writeIdentifier_three b _ (by decide),
      if_neg (by decide), if_neg (by decide)]
  case seteff =>
    obtain ⟨t, ht, hc⟩ := exec_spec (i := .seteff a) (s := s) nofun
    obtain ⟨u, hu, hr⟩ := exec_getid_replies s
    obtain ⟨v, hv, hq⟩ := exec_getid_replies t
    have hid : readIdentifier t.frame = readIdentifier s.frame := by
      rw [hc.frame, readIdentifier_frameAfter (by simp [Instr.opcode])]
    exact ⟨t, u, v, _, ht, hu, hv, hr, hid ▸ hq⟩

/-! The recommended order (70_reset_and_hazards.md R136, R137). -/

/-- The frame a list of commands leaves. -/
def frameAfterAll (is : List Instr) (m : Memory) : Memory := is.foldl (fun n i => frameAfter i n) m

@[simp] theorem frameAfterAll_nil (m : Memory) : frameAfterAll [] m = m := rfl

@[simp] theorem frameAfterAll_cons (i : Instr) (is : List Instr) (m : Memory) :
    frameAfterAll (i :: is) m = frameAfterAll is (frameAfter i m) := rfl

theorem frameAfterAll_append (is js : List Instr) (m : Memory) :
    frameAfterAll (is ++ js) m = frameAfterAll js (frameAfterAll is m) := List.foldl_append

theorem execAll_spec {is : List Instr} (h : ∀ i ∈ is, i.opcode ≠ .build) (s : State) :
    ∃ t, execAll is s = .next t ∧ t.frame = frameAfterAll is s.frame := by
  induction is generalizing s with
  | nil => exact ⟨s, rfl, rfl⟩
  | cons i is ih =>
    obtain ⟨u, hu, hc⟩ := exec_spec (allowsCommand_of_opcode (h i List.mem_cons_self) s)
    obtain ⟨t, ht, hf⟩ := ih (fun j hj => h j (List.mem_cons_of_mem i hj)) u
    exact ⟨t, by rw [execAll, hu]; exact ht, by rw [hf, hc.frame, frameAfterAll_cons]⟩

/-- A bit that no command of the list writes keeps its value. -/
theorem frameAfterAll_keeps {is : List Instr} {k : Fin 16} {b : Nat} (h : ∀ i ∈ is, ¬ writesBit i k b) (m : Memory) :
    ((frameAfterAll is m).read k).getLsbD b = (m.read k).getLsbD b := by
  induction is generalizing m with
  | nil => rfl
  | cons i is ih =>
    rw [frameAfterAll_cons, ih (fun j hj => h j (List.mem_cons_of_mem i hj)),
      frameAfter_keeps (h i List.mem_cons_self)]

theorem read_frameAfterAll_of_not_writes {is : List Instr} {k : Fin 16} (h : ∀ i ∈ is, ∀ b, ¬ writesBit i k b)
    (m : Memory) : (frameAfterAll is m).read k = m.read k :=
  read_congr fun b => frameAfterAll_keeps (fun i hi => h i hi b) m

/-- One PWR for each of the first n payload bytes. -/
def payloadWrites (payload : List Byte) (n : Nat) : List Instr :=
  (List.range n).map fun i => .pwr (BitVec.ofNat 32 i) ((payload.getD i 0).setWidth 32)

theorem mem_payloadWrites {payload : List Byte} {n : Nat} {i : Instr} (h : i ∈ payloadWrites payload n) :
    ∃ a b, i = .pwr a b := by
  obtain ⟨j, -, rfl⟩ := List.mem_map.mp h
  exact ⟨_, _, rfl⟩

theorem not_writesBit_payloadWrites {payload : List Byte} {n : Nat} {k : Fin 16} (hk : k.val < 8) {i : Instr}
    (hi : i ∈ payloadWrites payload n) (b : Nat) : ¬ writesBit i k b := by
  obtain ⟨a, v, rfl⟩ := mem_payloadWrites hi
  rintro ⟨-, h⟩
  omega

theorem byteOperand_setWidth (v : Byte) : byteOperand (v.setWidth 32) = v := by
  apply BitVec.eq_of_getLsbD_eq
  intro b hb
  simp [byteOperand, hb, show b < 32 by omega]

/-- The PWRs fill F[8] to F[8+n-1] with the payload and leave the other bytes. -/
theorem read_payloadWrites (payload : List Byte) (n : Nat) (hn : n ≤ 8) (m : Memory) (k : Fin 16) :
    (frameAfterAll (payloadWrites payload n) m).read k =
      if 8 ≤ k.val ∧ k.val < 8 + n then payload.getD (k.val - 8) 0x00 else m.read k := by
  induction n with
  | zero => rw [if_neg (by omega)]; rfl
  | succ n ih =>
    have ha : (BitVec.ofNat 32 n).toNat = n := by rw [BitVec.toNat_ofNat, Nat.mod_eq_of_lt (by omega)]
    rw [payloadWrites, List.range_succ, List.map_append, frameAfterAll_append, ← payloadWrites, List.map_singleton,
      frameAfterAll_cons, frameAfterAll_nil, read_frameAfter_pwr (by omega), byteOperand_setWidth, ha, ih (by omega)]
    by_cases hk : k.val = 8 + n
    · rw [if_pos hk, if_pos (by omega), hk, Nat.add_sub_cancel_left]
    · rw [if_neg hk]
      exact if_congr (by omega) rfl rfl

/-- The commands of the recommended order before the payload. -/
def headerWrites (v e r f n : Word) : List Instr := [.new, .setid v, .seteff e, .seterr r, .setrtr f, .setdlc n]

theorem opcode_ne_build_of_mem_recommended {v e r f n : Word} {payload : List Byte} {m : Nat} {i : Instr}
    (h : i ∈ headerWrites v e r f n ++ payloadWrites payload m) : i.opcode ≠ .build := by
  rcases List.mem_append.mp h with hi | hi
  · simp only [headerWrites, List.mem_cons, List.not_mem_nil, or_false] at hi
    rcases hi with rfl | rfl | rfl | rfl | rfl | rfl <;> nofun
  · obtain ⟨a, b, rfl⟩ := mem_payloadWrites hi
    nofun

theorem readIdentifier_payloadWrites (payload : List Byte) (n : Nat) (m : Memory) :
    readIdentifier (frameAfterAll (payloadWrites payload n) m) = readIdentifier m := by
  refine readIdentifier_congr fun k b hr => frameAfterAll_keeps (fun i hi => ?_) m
  have hk : k.val < 3 ∨ k.val = 3 ∧ b < 5 := hr
  exact not_writesBit_payloadWrites (by omega) hi b

/-- Settles O32: each part of the frame was last written by the one command that sets it, and the commands after that
one keep it. -/
theorem recommendedOrderBuildsTheFrame : Obligations.RecommendedOrderBuildsTheFrame := by
  intro s v e r f n payload hn hlen
  have hpay {k : Fin 16} (hk : k.val < 8) (i : Instr) (hi : i ∈ payloadWrites payload payload.length) (b : Nat) :=
    not_writesBit_payloadWrites hk hi b
  have hdlc (b : Nat) : ¬ writesBit (.setdlc n) 3 b := fun ⟨_, h⟩ => by omega
  obtain ⟨t, ht, hf⟩ := execAll_spec
    (is := headerWrites v e r f n ++ payloadWrites payload payload.length)
    (fun _ => opcode_ne_build_of_mem_recommended) s
  rw [frameAfterAll_append] at hf
  refine ⟨t, ht, ?id, ?eff, ?rtr, ?err, ?dlc, fun k h5 h8 => ?reserved, fun k h8 => ?payload⟩
  all_goals simp only [byte_eq, hf, headerWrites, frameAfterAll_cons, frameAfterAll_nil]
  case id =>
    rw [readIdentifier_payloadWrites]
    iterate 4 rw [readIdentifier_frameAfter (by simp [Instr.opcode])]
    exact readIdentifier_writeIdentifier v _
  case eff =>
    rw [frameAfterAll_keeps fun i hi => hpay (by decide) i hi 7, frameAfter_keeps (hdlc 7),
      frameAfter_keeps (by simp [writesBit]), frameAfter_keeps (by simp [writesBit])]
    exact (getLsbD_read_writeFlag .eff _ _ 3 7).trans (if_pos ⟨rfl, rfl⟩)
  case rtr =>
    rw [frameAfterAll_keeps fun i hi => hpay (by decide) i hi 6, frameAfter_keeps (hdlc 6),
      getLsbD_read_frameAfter_setrtr, if_neg (by simp), if_pos ⟨rfl, rfl⟩]
  case err =>
    rw [frameAfterAll_keeps fun i hi => hpay (by decide) i hi 5, frameAfter_keeps (hdlc 5),
      frameAfter_keeps (by simp [writesBit])]
    exact (getLsbD_read_writeFlag .err _ _ 3 5).trans (if_pos ⟨rfl, rfl⟩)
  case dlc =>
    rw [read_frameAfterAll_of_not_writes (hpay (by decide)), read_frameAfter_setdlc hn, if_neg (by omega), if_pos rfl,
      toNat_extractLsb'_of_le_eight hn]
  case reserved =>
    rw [read_frameAfterAll_of_not_writes (hpay h8)]
    iterate 5
      rw [read_frameAfter_of_not_writes
        (not_writesBit_reserved (by simp [Instr.opcode]) (by simp [Instr.opcode]) h5 h8)]
    exact read_clearFrame _ k
  case payload =>
    rw [read_payloadWrites payload payload.length (by omega)]
    by_cases hk : k.val < 8 + payload.length
    · rw [if_pos ⟨h8, hk⟩]
    · rw [if_neg (by omega), read_frameAfter_setdlc hn, if_pos (by omega), List.getD_eq_default _ _ (by omega)]

end Sys2Proof.Machine
end

section
/-! SUPPORT. The decoder as a whole: each opcode's reading, and the encoder's words read back (30_encoding.md R55 to
R67). -/

namespace Sys2Proof

theorem mem_opcode_all (o : Opcode) : o ∈ Opcode.all := by cases o <;> decide

/-- OP is none of the sixteen numbers exactly when the map has no row for it (30_encoding.md R63, R64). -/
theorem ofCode?_eq_none_iff_not_mem {op : Byte} : Opcode.ofCode? op = none ↔ op ∉ Opcode.all.map Opcode.code := by
  simp [ofCode?_eq_none, mem_opcode_all]

theorem decode_of_ofCode?_none {x : Transfer} (h : Opcode.ofCode? (opField x.cw) = none) :
    decode x = .illegal (opField x.cw) := by
  simp only [decode, h]

/-- The stream decides only between a command and `unpresentable`. -/
theorem decode_not_illegal {x : Transfer} {o : Opcode} (h : Opcode.ofCode? (opField x.cw) = some o) (op : Byte) :
    decode x ≠ .illegal op := by
  cases o
  case load => simp only [decode, h]; exact decodeLoad_not_illegal
  case build => simp only [decode, h]; exact decodeBuild_not_illegal
  all_goals simp [decode, h]

theorem decode_illegal_iff {x : Transfer} :
    (∃ op, decode x = .illegal op) ↔ Opcode.ofCode? (opField x.cw) = none := by
  cases h : Opcode.ofCode? (opField x.cw) with
  | none => exact iff_of_true ⟨_, decode_of_ofCode?_none h⟩ rfl
  | some o => exact iff_of_false (fun ⟨op, e⟩ => decode_not_illegal h op e) (by simp)

/-- Settles O36: the list of the statement is the map's column of numbers. -/
theorem unassignedOpcodesAreIllegal : Obligations.UnassignedOpcodesAreIllegal :=
  fun _ => decode_illegal_iff.trans ofCode?_eq_none_iff_not_mem

/-- Settles O37: an unassigned OP decodes to an illegal command, which a step answers as an error. -/
theorem illegalCommandIsAnsweredAndChangesNothing : Obligations.IllegalCommandIsAnsweredAndChangesNothing := by
  intro s x later hi hop
  obtain ⟨op, hd⟩ := (unassignedOpcodesAreIllegal x).mpr hop
  rw [Machine.step_command hi, hd]
  exact Machine.raiseError_replies .illegalCommand _

/-- Settles O33: each opcode's arm reads the operands and the stream that the encoder wrote. -/
theorem decodeOfEncodeIsTheCommand : Obligations.DecodeOfEncodeIsTheCommand := by
  intro i hwf
  obtain ⟨ho, ha, hb, hs⟩ := Laws.EncodesFields.all i
  cases i
  case load s =>
    have hlt : s.length < 2 ^ 32 := by simpa [Instr.wf] using hwf
    simp only [decode, ho, Instr.opcode, decodeLoad_command, ha, hs]
    exact ⟨s, rfl, by rw [Instr.aOperand, BitVec.toNat_ofNat, Nat.mod_eq_of_lt hlt], rfl⟩
  case build items =>
    have hlt : items.length < 2 ^ 32 ∧ ∀ j ∈ items, j.wf = true := by simpa [Instr.wf] using hwf
    have hitems : (items.map encodeItem).map decodeItem = items := by
      rw [List.map_map]
      exact (List.map_congr_left fun j hj => decodeItem_encodeItem (hlt.2 j hj)).trans (List.map_id items)
    simp only [decode, ho, Instr.opcode, decodeBuild_command, ha, hs]
    refine ⟨items.map encodeItem, rfl, ?_, by rw [hitems]⟩
    rw [List.length_map, Instr.aOperand, BitVec.toNat_ofNat, Nat.mod_eq_of_lt hlt.1]
  case pwr a b => simp only [decode, ho, Instr.opcode, ha, hb, Instr.aOperand, Instr.bOperand]
  all_goals simp only [decode, ho, Instr.opcode, ha, Instr.aOperand]

/-- A transfer spells a well-formed command: the map gives its opcode, and the fields and the stream that it uses are
its own. -/
structure Spells (x : Transfer) (i : Instr) : Prop where
  opcode : Opcode.ofCode? (opField x.cw) = some i.opcode
  wf : i.wf = true
  aOperand : i.opcode ∈ [Opcode.load, .build, .setid, .setdlc, .seteff, .setrtr, .seterr, .prd, .pwr] →
    i.aOperand = aField x.cw
  bOperand : i.opcode = .pwr → i.bOperand = bField x.cw
  bits : i.opcode ∈ [Opcode.load, .build] → 72 + x.stream.bits = commandBits x.cw

theorem spells_of_decode {x : Transfer} {i : Instr} (h : decode x = .command i) : Spells x i := by
  cases ho : Opcode.ofCode? (opField x.cw) with
  | none => rw [decode_of_ofCode?_none ho] at h; cases h
  | some o =>
    cases o
    case load =>
      simp only [decode, ho, decodeLoad_command] at h
      obtain ⟨s, hs, hlen, rfl⟩ := h
      have hlt := (aField x.cw).isLt
      refine ⟨ho, by simpa [Instr.wf, hlen] using hlt, fun _ => ?_, nofun, fun _ => ?_⟩
      · rw [Instr.aOperand, hlen, BitVec.ofNat_toNat, BitVec.setWidth_eq]
      · rw [bits_of_asBytes hs, hlen]; simp only [commandBits, ho]
    case build =>
      simp only [decode, ho, decodeBuild_command] at h
      obtain ⟨s, hs, hlen, rfl⟩ := h
      have hlt := (aField x.cw).isLt
      refine ⟨ho, ?_, fun _ => ?_, nofun, fun _ => ?_⟩
      · simpa [Instr.wf, hlen, decodeItem_wf] using hlt
      · rw [Instr.aOperand, List.length_map, hlen, BitVec.ofNat_toNat, BitVec.setWidth_eq]
      · rw [bits_of_asItems hs, hlen]; simp only [commandBits, ho]
    all_goals
      simp only [decode, ho, Decoded.command.injEq] at h
      subst h
      constructor <;> simp [ho, Instr.opcode, Instr.wf, Instr.aOperand, Instr.bOperand]

/-- Settles O34. -/
theorem encodeOfDecodeKeepsTheUsedFields : Obligations.EncodeOfDecodeKeepsTheUsedFields := by
  intro x i h
  obtain ⟨ho, hwf, ha, hb, -⟩ := spells_of_decode h
  obtain ⟨-, hea, heb, -⟩ := Laws.EncodesFields.all i
  exact ⟨hwf, (opField_encode i).trans (code_of_ofCode? ho), fun hu => hea.trans (ha hu), fun hu => heb.trans (hb hu)⟩

/-- Settles O35: the arm of an opcode mentions only the fields that the opcode uses. -/
theorem unusedFieldsHaveNoEffect : Obligations.UnusedFieldsHaveNoEffect := by
  intro x y hop ha hb hs
  change opField x.cw = opField y.cw at hop
  change opField x.cw ∈ _ → aField x.cw = aField y.cw at ha
  change opField x.cw = _ → bField x.cw = bField y.cw at hb
  change opField x.cw ∈ _ → x.stream = y.stream at hs
  cases ho : Opcode.ofCode? (opField x.cw) with
  | none => rw [decode_of_ofCode?_none ho, decode_of_ofCode?_none (hop ▸ ho), hop]
  | some o =>
    have hoy := hop ▸ ho
    rw [← code_of_ofCode? ho] at ha hb hs
    cases o
    case load => simp only [decode, ho, hoy, ha (by decide), hs (by decide)]
    case build => simp only [decode, ho, hoy, ha (by decide), hs (by decide)]
    case pwr => simp only [decode, ho, hoy, ha (by decide), hb (by decide)]
    case setid | setdlc | seteff | setrtr | seterr | prd => simp only [decode, ho, hoy, ha (by decide)]
    all_goals simp only [decode, ho, hoy]

theorem opField_eq_code_iff {cw : CommandWord} {o : Opcode} :
    opField cw = o.code ↔ Opcode.ofCode? (opField cw) = some o :=
  ⟨fun h => h ▸ ofCode?_code o, fun h => (code_of_ofCode? h).symm⟩

/-- Settles O38: LOAD and BUILD are the map's rows with a stream, and a stream that decodes has A elements. -/
theorem commandLengthComesFromOpAndA : Obligations.CommandLengthComesFromOpAndA := by
  refine ⟨fun cw => ?_, fun x i h hop => ?_⟩
  · have hload : cw.extractLsb' 0 8 = 0x02 ↔ _ := opField_eq_code_iff (cw := cw) (o := .load)
    have hbuild : cw.extractLsb' 0 8 = 0x30 ↔ _ := opField_eq_code_iff (cw := cw) (o := .build)
    rw [commandBits]
    simp only [hload, hbuild]
    rcases ho : Opcode.ofCode? (opField cw) with _ | o
    · rfl
    · cases o <;> rfl
  · exact (spells_of_decode h).bits hop

theorem decode_unpresentable_iff {x : Transfer} : decode x = .unpresentable ↔
    (Opcode.ofCode? (opField x.cw) = some .load ∧
      ∀ s, x.stream.asBytes? = some s → s.length ≠ (aField x.cw).toNat) ∨
    (Opcode.ofCode? (opField x.cw) = some .build ∧
      ∀ s, x.stream.asItems? = some s → s.length ≠ (aField x.cw).toNat) := by
  cases ho : Opcode.ofCode? (opField x.cw) with
  | none => simp [decode_of_ofCode?_none ho]
  | some o =>
    cases o
    case load => simpa [decode, ho] using decodeLoad_unpresentable
    case build => simpa [decode, ho] using decodeBuild_unpresentable
    all_goals simp [decode, ho]

/-- Settles O39: 0x02 and 0x30 are the numbers of LOAD and BUILD, the only arms that look at the stream. -/
theorem onlyAWrongStreamLengthIsUnpresentable : Obligations.OnlyAWrongStreamLengthIsUnpresentable := by
  intro x
  have hload : x.cw.extractLsb' 0 8 = 0x02 ↔ _ := opField_eq_code_iff (cw := x.cw) (o := .load)
  have hbuild : x.cw.extractLsb' 0 8 = 0x30 ↔ _ := opField_eq_code_iff (cw := x.cw) (o := .build)
  rw [hload, hbuild]
  exact decode_unpresentable_iff

/-- Settles O40: each word is decoded by evaluation. -/
theorem writtenOutWordsDecode : Obligations.WrittenOutWordsDecode := by
  unfold Obligations.WrittenOutWordsDecode
  decide

/-- Settles O41: each line is assembled by evaluation. -/
theorem assemblerExamples : Obligations.AssemblerExamples := by
  unfold Obligations.AssemblerExamples
  decide

end Sys2Proof
end
